-- ==== Sys2Proof/Word.lean ====
section
/-! DEFINITION. The plain words of the block: a byte, a column word, a response.
A coordinate is an `Int` (00_scope.md R10) and every other count is a `Nat`. -/

namespace Sys2Proof

/-- A byte of a packet, of a text or of a frame: "an integer in 0..255" (00_scope.md R15). -/
abbrev Byte := BitVec 8

/-- One column word `BUF[c]`: "an unsigned integer in 0 .. 2^ROWS - 1" (10_state.md R21).
`ROWS` varies between instances, so the word is a natural and its bound is `Buffer.wf`. -/
abbrev ColumnWord := Nat

/-- One response on `RSP`: "A response is 4 bits", `ret` in bit 3 and `cause` in bits 2:0
(30_encoding.md R68). -/
abbrev Response := BitVec 4

end Sys2Proof
end

