-- ==== Sys2Proof/Syntax.lean ====
section
/-! DEFINITION. The eight commands, one constructor per row of spec/opcode_table.json
(30_encoding.md R63, R67). Coordinates are read into the integers (00_scope.md R10). -/

namespace Sys2Proof

/-- A decoded command: a mnemonic and its operands (30_encoding.md R67). -/
inductive Instr where
  /-- `SET col, row, state` (40_dot_ops.md R81). -/
  | set (col row : Int) (state : Bool)
  /-- `GET col, row` (40_dot_ops.md R82). -/
  | get (col row : Int)
  /-- `INVERT col, row` (40_dot_ops.md R83). -/
  | invert (col row : Int)
  /-- `FILL_ALL` (41_bulk_ops.md R91). -/
  | fillAll
  /-- `ERASE_ALL` (41_bulk_ops.md R92). -/
  | eraseAll
  /-- `TOGGLE_ORIENTATION` (41_bulk_ops.md R94). -/
  | toggleOrientation
  /-- `WRITE_TEXT text, col, row` (42_write_text.md R102). The operands stand in packet order
  (30_encoding.md R61, format T); `text` holds one character code a byte, leftmost first. -/
  | writeText (col row : Int) (text : List Byte)
  /-- `SEND` (43_send_frame.md R128). -/
  | send
deriving DecidableEq, Repr

end Sys2Proof
end

