-- ==== Sys2Proof/WellFormed.lean ====
section
/-! DEFINITION. Which commands a packet can carry: coordinates within `XW` bits
(00_scope.md R10; 92_eei_decisions.md D4). A text may have any length (30_encoding.md R64). -/

namespace Sys2Proof

/-- A coordinate operand of `xw` bits: `-2^(xw-1) .. 2^(xw-1) - 1` (00_scope.md R10). -/
def coordFits (xw : Nat) (x : Int) : Bool :=
  decide (-(2 ^ (xw - 1) : Int) ≤ x) && decide (x < 2 ^ (xw - 1))

/-- Both coordinates of a point fit. -/
def pointFits (xw : Nat) (col row : Int) : Bool :=
  coordFits xw col && coordFits xw row

/-- The commands that some packet of an instance with `XW = xw` encodes. -/
def wellFormed (xw : Nat) : Instr → Bool
  | .set col row _ => pointFits xw col row
  | .get col row => pointFits xw col row
  | .invert col row => pointFits xw col row
  | .fillAll => true
  | .eraseAll => true
  | .toggleOrientation => true
  | .writeText col row _ => pointFits xw col row
  | .send => true

end Sys2Proof
end

