-- ==== Sys2Proof/Decode.lean ====
section
/-! DEFINITION. The command decoder, total on byte sequences (30_encoding.md R60 to R66), the
encoder written from the same tables, and the reading of an opcode-table word. `xb` is
`XB = XW / 8`, the bytes of one coordinate operand (R61); the table's packets have `xb = 2`. -/

namespace Sys2Proof

/-- Why a packet is `ILLEGAL`: the cases of 30_encoding.md R66. -/
inductive DecodeError where
  /-- (a) the packet is empty. -/
  | emptyPacket
  /-- (b) the opcode is 0x00 or one of 0x09..0xFF. -/
  | unassignedOpcode
  /-- (c) a format Z, P or PS opcode with another length than its format's. -/
  | wrongLength
  /-- (d) a format T packet too short for its point. -/
  | shortText
  /-- (e) a SET whose state byte is neither 0x00 nor 0x01. -/
  | badState
deriving DecidableEq, Repr

/-- The natural number of a byte sequence, least significant byte first (30_encoding.md R60, R62). -/
def leNat : List Byte → Nat
  | [] => 0
  | b :: bs => b.toNat + 256 * leNat bs

/-- The `n` low bytes of a natural number, least significant byte first. -/
def leBytes : Nat → Nat → List Byte
  | 0, _ => []
  | n + 1, v => BitVec.ofNat 8 v :: leBytes n (v / 256)

/-- `sext_n(v)`: the `n`-bit value `v` read as a two's-complement integer (00_scope.md R16;
30_encoding.md R62). -/
def sext (n v : Nat) : Int :=
  if v < 2 ^ (n - 1) then (v : Int) else (v : Int) - 2 ^ n

/-- The coordinate in the first `xb` bytes of an operand field (30_encoding.md R62). -/
def coordOf (xb : Nat) (bs : List Byte) : Int :=
  sext (8 * xb) (leNat (bs.take xb))

/-- The `xb` bytes of a coordinate operand. -/
def coordBytes (xb : Nat) (x : Int) : List Byte :=
  leBytes xb (x % 2 ^ (8 * xb)).toNat

/-- Format Z: no operands (30_encoding.md R61). -/
def decodePlain (i : Instr) (operands : List Byte) : Except DecodeError Instr :=
  if operands.length = 0 then .ok i else .error .wrongLength

/-- Format P: a point (30_encoding.md R61). -/
def decodePoint (xb : Nat) (make : Int → Int → Instr) (operands : List Byte) :
    Except DecodeError Instr :=
  if operands.length = 2 * xb then
    .ok (make (coordOf xb operands) (coordOf xb (operands.drop xb)))
  else .error .wrongLength

/-- The state operand: `0x00` means false, `0x01` means true, any other value is illegal
(30_encoding.md R62). -/
def stateOf (b : Byte) : Option Bool :=
  if b = 0x00 then some false else if b = 0x01 then some true else none

/-- Format PS: a point and a state byte (30_encoding.md R61, R62). -/
def decodePointState (xb : Nat) (operands : List Byte) : Except DecodeError Instr :=
  if operands.length = 2 * xb + 1 then
    match stateOf ((operands.drop (2 * xb)).headD 0) with
    | some state => .ok (.set (coordOf xb operands) (coordOf xb (operands.drop xb)) state)
    | none => .error .badState
  else .error .wrongLength

/-- Format T: a point and a text of any length (30_encoding.md R61, R64). -/
def decodeText (xb : Nat) (operands : List Byte) : Except DecodeError Instr :=
  if 2 * xb ≤ operands.length then
    .ok (.writeText (coordOf xb operands) (coordOf xb (operands.drop xb)) (operands.drop (2 * xb)))
  else .error .shortText

/-- The decoder: every byte sequence is one command with its operands, or `ILLEGAL`
(30_encoding.md R65; opcodes of R63). -/
def decode (xb : Nat) : List Byte → Except DecodeError Instr
  | [] => .error .emptyPacket
  | opcode :: operands =>
    match opcode.toNat with
    | 0x01 => decodePointState xb operands
    | 0x02 => decodePoint xb .get operands
    | 0x03 => decodePoint xb .invert operands
    | 0x04 => decodePlain .fillAll operands
    | 0x05 => decodePlain .eraseAll operands
    | 0x06 => decodePlain .toggleOrientation operands
    | 0x07 => decodeText xb operands
    | 0x08 => decodePlain .send operands
    | _ => .error .unassignedOpcode

/-- The operand bytes of a point: `col` then `row` (30_encoding.md R61). -/
def pointBytes (xb : Nat) (col row : Int) : List Byte :=
  coordBytes xb col ++ coordBytes xb row

/-- The state byte of format PS (30_encoding.md R62). -/
def stateByte (state : Bool) : Byte := if state then 0x01 else 0x00

/-- The packet of a command (30_encoding.md R61, R63). -/
def encode (xb : Nat) : Instr → List Byte
  | .set col row state => 0x01 :: (pointBytes xb col row ++ [stateByte state])
  | .get col row => 0x02 :: pointBytes xb col row
  | .invert col row => 0x03 :: pointBytes xb col row
  | .fillAll => [0x04]
  | .eraseAll => [0x05]
  | .toggleOrientation => [0x06]
  | .writeText col row text => 0x07 :: (pointBytes xb col row ++ text)
  | .send => [0x08]

/-- The least length of a packet with this opcode (30_encoding.md R61, R63). -/
def minLength (xb : Nat) (opcode : Byte) : Nat :=
  match opcode.toNat with
  | 0x01 => 2 + 2 * xb
  | 0x02 => 1 + 2 * xb
  | 0x03 => 1 + 2 * xb
  | 0x07 => 1 + 2 * xb
  | _ => 1

/-- The packet an opcode-table word stands for: `p[k]` is bits `[8k+7 : 8k]`
(30_encoding.md R60), and operand bytes the table gives no bits are zero. -/
def tablePacket (nbits w : Nat) : List Byte :=
  let given := leBytes (nbits / 8) w
  given ++ List.replicate (minLength 2 (given.headD 0) - given.length) 0

/-- The command the decoder reads from an opcode-table word. -/
def decodeTableWord (nbits w : Nat) : Option Instr :=
  match decode 2 (tablePacket nbits w) with
  | .ok i => some i
  | .error _ => none

end Sys2Proof
end

