-- ==== Sys2Proof/Config.lean ====
section
/-! DEFINITION. What an instance fixes: the construction parameters (00_scope.md R7 to R12), and
the free values the spec leaves open: the contents of the hardware's own font table (R11). -/

namespace Sys2Proof

/-- A glyph: "5 column patterns `g[0..4]`, each of 7 bits" (00_scope.md R11; 42_write_text.md R100). -/
structure Glyph where
  g0 : BitVec 7
  g1 : BitVec 7
  g2 : BitVec 7
  g3 : BitVec 7
  g4 : BitVec 7
deriving DecidableEq, Repr, Inhabited

/-- FREE VALUE: the hardware's glyph for `'A'`. The spec gives its existence and not one of its bits
(42_write_text.md R101; notes/assumptions/2.md). DESIGN CHOICE, safe: nothing can evaluate it. -/
opaque Config.glyphA : Glyph

/-- FREE VALUE: the hardware's font table for every code other than `'A'` (42_write_text.md R101;
notes/assumptions/2.md). DESIGN CHOICE, safe: nothing can evaluate it. -/
opaque Config.otherGlyph : Byte → Option Glyph

/-- The font table `FONT` of an instance, as plain data (00_scope.md R11; notes/assumptions/2.md). -/
inductive Font where
  /-- The hardware's own table, whose contents are in no source. -/
  | hardware
  /-- A table given entry by entry (the first entry of a code counts, every other code is
  unsupported): with it a statement about every state is about every font, and the spec's vectors
  with their fixture font can be run. -/
  | table (entries : List (Byte × Glyph))
deriving DecidableEq, Repr

/-- The construction parameters, constants of the instance (00_scope.md R7 to R12; 10_state.md R25). -/
structure Params where
  /-- `ADDR`, the logical display address (R7). -/
  addr : Nat
  /-- `COLUMNS`, the number of buffer words (R8). -/
  columns : Nat
  /-- `ROWS_REQ`, the requested number of rows (R9). -/
  rowsReq : Nat
  /-- `XW`, the width of a coordinate operand in bits (R10). -/
  xw : Nat
  /-- `ORIENT_INIT = 1`: built flipped (R12). -/
  orientInit : Bool
  /-- `SPEED_INIT`, the speed factor at reset (R12). -/
  speedInit : Rat
  /-- `VERBOSE`; nothing reads it (R12; 60_exceptions.md R165; notes/assumptions/13.md). -/
  verbose : Bool
  /-- `FONT` (R11). -/
  font : Font
deriving DecidableEq, Repr

/-- The spec's default values: address 2, 84 columns, 8 rows, 16-bit coordinates, normal
orientation, speed 1, verbose off (00_scope.md R7 to R12), and the hardware's own font. -/
def Params.default : Params where
  addr := 2
  columns := 84
  rowsReq := 8
  xw := 16
  orientInit := false
  speedInit := 1
  verbose := false
  font := .hardware

end Sys2Proof
end

