-- ==== Sys2Proof/Machine/Constants.lean ====
section
/-! DEFINITION. The derived constants of an instance (00_scope.md R9, R13; 30_encoding.md R61), its
font as a function, and the legality of its parameters (00_scope.md R7 to R11). -/

namespace Sys2Proof

/-- `WIRE = ADDR + 16` (00_scope.md R7, R13). -/
def Params.wire (p : Params) : Nat := p.addr + 16

/-- `ROWS = ((ROWS_REQ + 7) div 8) * 8` (00_scope.md R9). -/
def Params.rows (p : Params) : Nat := (p.rowsReq + 7) / 8 * 8

/-- `BPC = ROWS / 8`, the bytes of one column word (00_scope.md R9). -/
def Params.bpc (p : Params) : Nat := p.rows / 8

/-- `DATA_SIZE = ROWS * COLUMNS / 8` (00_scope.md R13). -/
def Params.dataSize (p : Params) : Nat := p.rows * p.columns / 8

/-- `PAYLOAD_LEN = 2 * COLUMNS * BPC` (00_scope.md R13). -/
def Params.payloadLen (p : Params) : Nat := 2 * p.columns * p.bpc

/-- `FRAME_LEN = 5 + PAYLOAD_LEN + 3` (00_scope.md R13). -/
def Params.frameLen (p : Params) : Nat := 5 + p.payloadLen + 3

/-- `XB = XW / 8`, the bytes of one coordinate operand (30_encoding.md R61). -/
def Params.xb (p : Params) : Nat := p.xw / 8

/-- `FONT(ch)`: the glyph of a supported character, `none` for every other (42_write_text.md R100). -/
def Font.glyph (f : Font) (ch : Byte) : Option Glyph :=
  match f with
  | .hardware => if ch = 0x41 then some Config.glyphA else Config.otherGlyph ch
  | .table entries => entries.lookup ch

/-- `g[i]`, the `i`-th column of a glyph from its left edge (42_write_text.md R100). -/
def Glyph.column (g : Glyph) (i : Nat) : BitVec 7 :=
  match i with
  | 0 => g.g0
  | 1 => g.g1
  | 2 => g.g2
  | 3 => g.g3
  | 4 => g.g4
  | _ => 0

/-- The parameters with which an instance exists: `ADDR` in 1..16 (00_scope.md R7),
`1 ≤ COLUMNS ≤ 2^(XW-1)` (R8), `1 ≤ ROWS_REQ` and `ROWS ≤ 2^(XW-1)` (R9), `XW` a positive multiple
of 8 (30_encoding.md R61), `SPEED_INIT > 0` (44_speed_control.md R145) and `'A'` supported
(92_eei_decisions.md D6). -/
def Params.legal (p : Params) : Bool :=
  decide (1 ≤ p.addr ∧ p.addr ≤ 16) &&
  decide (1 ≤ p.columns ∧ p.columns ≤ 2 ^ (p.xw - 1)) &&
  decide (1 ≤ p.rowsReq ∧ p.rows ≤ 2 ^ (p.xw - 1)) &&
  decide (8 ≤ p.xw ∧ p.xw % 8 = 0) &&
  decide (0 < p.speedInit) &&
  (p.font.glyph 0x41).isSome

end Sys2Proof
end

