-- ==== Sys2Proof/Machine/State.lean ====
section
/-! DEFINITION. The state of the machine as plain data, the reasons a step can stop, and reset
(10_state.md R20, R34; 70_reset_and_hazards.md R170). INVENTORY.md lists every field with its rule. -/

namespace Sys2Proof.Machine

/-- `ORIENT`, the block's only flag (10_state.md R24). -/
inductive Orientation where
  /-- `ORIENT = 0`. -/
  | normal
  /-- `ORIENT = 1`: the 180° rotation of coordinate addressing. -/
  | flipped
deriving DecidableEq, Repr

/-- One answer of the transport to one presented byte (60_exceptions.md R160 (2)). -/
inductive TxAnswer where
  /-- The byte was taken: it is on the wire. -/
  | ok
  /-- The byte was not taken and the write failed. -/
  | fail
  /-- No answer yet; the byte is presented again (notes/assumptions/6.md). -/
  | stall
deriving DecidableEq, Repr

/-- What the caller may do while the block is idle (60_exceptions.md R167), the optional speed
unit's operations included (44_speed_control.md). -/
inductive CallerMove where
  /-- Present a packet on `CMD` (30_encoding.md R60). -/
  | packet (bytes : List Byte)
  /-- Attach (`true`) or detach (`false`) the transport. -/
  | attach (present : Bool)
  /-- Reset the block (70_reset_and_hazards.md R170). -/
  | reset
  /-- `set_speed_factor(f)` (44_speed_control.md R141). -/
  | setSpeed (f : Rat)
  /-- `get_speed_factor()` (44_speed_control.md R142). -/
  | getSpeed
  /-- `adjust_delay(d)` (44_speed_control.md R143). -/
  | adjustDelay (d : Rat)
deriving DecidableEq, Repr

/-- No fault exists: "The block raises no exception and takes no trap" (60_exceptions.md R150;
notes/assumptions/16.md). -/
inductive Fault where
deriving DecidableEq, Repr

/-- Why a step is refused. -/
inductive Refusal where
  /-- An instruction without a meaning yet; raised by an arm of `exec` only. Safe: the run ends.
  No arm raises it in this model. -/
  | notModelled (mnemonic : String)
  /-- The parameters are outside their legal range, so "no instance exists" (00_scope.md R7, R8, R9;
  93 U6). Raised by `step` before anything else. Safe: the run ends (notes/assumptions/12.md). -/
  | noInstance
deriving DecidableEq, Repr

/-- The machine. The first four fields are the spec's (10_state.md R20, R25); `sending` is the
transient of R30 that a stalled `SEND` keeps; the others are the ports and the environment. -/
structure State where
  /-- The constants of the instance; no step writes them (10_state.md R25, R35;
  notes/assumptions/1.md). -/
  params : Params
  /-- `BUF`: `COLUMNS` words of `ROWS` bits (10_state.md R21). -/
  buf : List ColumnWord
  /-- `ORIENT` (10_state.md R24). -/
  orient : Orientation
  /-- `SPEED` of the optional unit (10_state.md R26). -/
  speed : Rat
  /-- The byte position of a `SEND` the transport is stalling; `none` when idle (10_state.md R30;
  43_send_frame.md R131; notes/assumptions/7.md). -/
  sending : Option Nat
  /-- Is a transport attached now (60_exceptions.md R160 (1); notes/assumptions/5.md)? -/
  attached : Bool
  /-- The transport's answers still to come, the next first; none left is no answer yet
  (60_exceptions.md R160 (2); notes/assumptions/6.md). -/
  answers : List TxAnswer
  /-- The caller's moves still to come, the next first (60_exceptions.md R167, R168;
  notes/assumptions/8.md). -/
  caller : List CallerMove
  /-- The responses produced so far, oldest first (60_exceptions.md R168; notes/assumptions/9.md). -/
  rsp : List Response
  /-- The bytes answered `ok` so far, oldest first (60_exceptions.md R160, R168). -/
  tx : List Byte
  /-- The numbers the speed unit has returned so far, oldest first (44_speed_control.md R142, R143). -/
  spd : List Rat
deriving DecidableEq, Repr

/-- `ORIENT_INIT` as a value of the flag (00_scope.md R12). -/
def Orientation.ofInit (flippedAtReset : Bool) : Orientation :=
  if flippedAtReset then .flipped else .normal

/-- The machine right after construction with parameters `p` (10_state.md R34;
70_reset_and_hazards.md R170), the outside world quiet: no moves, no answers, no transport. -/
def State.construct (p : Params) : State where
  params := p
  buf := List.replicate p.columns 0
  orient := Orientation.ofInit p.orientInit
  speed := p.speedInit
  sending := none
  attached := false
  answers := []
  caller := []
  rsp := []
  tx := []
  spd := []

/-- The machine right after reset: the instance with the spec's default parameters
(notes/assumptions/17.md). -/
def State.reset : State := State.construct Params.default

end Sys2Proof.Machine
end

