-- ==== Sys2Proof/Machine/Ops.lean ====
section
/-! DEFINITION. The named operations over the raster buffer and the ports (00_scope.md R16). The
block takes no trap (60_exceptions.md R155); what stands in for one is `respond`, the one way a
command reports success or failure (R150, R151). -/

namespace Sys2Proof.Machine

/-- The bit of row `r` in a column word: `1 << r` (20_memory.md R46). -/
def rowBit (r : Nat) : Nat := 1 <<< r

/-- `w | (1 << r)` (40_dot_ops.md R81). -/
def setBit (w : ColumnWord) (r : Nat) : ColumnWord := w ||| rowBit r

/-- `w & ~(1 << r)`, "meaning `w` with bit `r` cleared" (00_scope.md R15; 40_dot_ops.md R81). -/
def clearBit (w : ColumnWord) (r : Nat) : ColumnWord := w ^^^ (w &&& rowBit r)

/-- `w XOR (1 << r)` (40_dot_ops.md R83). -/
def flipBit (w : ColumnWord) (r : Nat) : ColumnWord := w ^^^ rowBit r

/-- The word of a whole lit column: `(1 << ROWS) - 1` (41_bulk_ops.md R91). -/
def litWord (p : Params) : ColumnWord := (1 <<< p.rows) - 1

/-- Read of buffer word `c` (00_scope.md R16; notes/assumptions/14.md). -/
def wordAt (buf : List ColumnWord) (c : Nat) : ColumnWord := buf.getD c 0

/-- `MemRead((c,r),1) = BUF[c][r]`, one dot of the physical dot space (20_memory.md R40). -/
def State.dot (s : State) (c r : Nat) : Bool := (wordAt s.buf c).testBit r

/-- `BUF[c] <- v` (00_scope.md R16). -/
def writeWord (s : State) (c : Nat) (v : ColumnWord) : State :=
  { s with buf := s.buf.set c v }

/-- Every word of `BUF` takes the same value (41_bulk_ops.md R90). -/
def writeAllWords (s : State) (v : ColumnWord) : State :=
  { s with buf := List.replicate s.params.columns v }

/-- Reset of the block (70_reset_and_hazards.md R170; 10_state.md R34): the state takes its reset
values, the parameters stay (R171), and what was observed stays observed (notes/assumptions/9.md). -/
def resetBlock (s : State) : State :=
  { s with
    buf := List.replicate s.params.columns 0
    orient := Orientation.ofInit s.params.orientInit
    speed := s.params.speedInit
    sending := none }

/-- How a run of presented bytes ended (60_exceptions.md R160). -/
inductive TxStatus where
  /-- Every byte was taken. -/
  | allTaken
  /-- A write failed; nothing was presented after it (43_send_frame.md R130). -/
  | failed
  /-- The transport has not answered the next byte yet (43_send_frame.md R131). -/
  | stalled
deriving DecidableEq, Repr

/-- What presenting a sequence of bytes came to. -/
structure Transmission where
  /-- The bytes taken, in order. -/
  sent : List Byte
  /-- The answers not used. -/
  rest : List TxAnswer
  status : TxStatus
deriving DecidableEq, Repr

/-- `emit` of each byte in order until one is not taken (43_send_frame.md R128, R130, R131). -/
def transmit : List Byte → List TxAnswer → Transmission
  | [], answers => ⟨[], answers, .allTaken⟩
  | b :: bytes, .ok :: answers =>
    let t := transmit bytes answers
    ⟨b :: t.sent, t.rest, t.status⟩
  | _ :: _, .fail :: answers => ⟨[], answers, .failed⟩
  | _ :: _, .stall :: answers => ⟨[], answers, .stalled⟩
  | _ :: _, [] => ⟨[], [], .stalled⟩

end Sys2Proof.Machine
end

