-- ==== Sys2Proof/Machine/Flags.lean ====
section
/-! DEFINITION. The block's only flag, `ORIENT` (10_state.md R24), and the response each command
gives: `ret` and `cause` (30_encoding.md R68 to R70). There are no condition codes. -/

namespace Sys2Proof.Machine

/-- Why `ret` is 0, or that nothing failed (30_encoding.md R70; the spec's own numbers, D7). -/
inductive Cause where
  /-- 0 `NONE`. -/
  | none
  /-- 1 `OUT_OF_RANGE`. -/
  | outOfRange
  /-- 2 `NO_TRANSPORT`. -/
  | noTransport
  /-- 3 `WRITE_FAIL`. -/
  | writeFail
  /-- 4 `ILLEGAL`. -/
  | illegal
deriving DecidableEq, Repr

/-- The number of a cause (30_encoding.md R70). -/
def Cause.code : Cause → BitVec 3
  | .none => 0
  | .outOfRange => 1
  | .noTransport => 2
  | .writeFail => 3
  | .illegal => 4

/-- The 4-bit response: `ret` in bit 3, `cause` in bits 2:0 (30_encoding.md R68). -/
def response (ret : Bool) (cause : Cause) : Response :=
  BitVec.ofBool ret ++ cause.code

/-- `respond(ret, cause)`: put the one response of this command on `RSP` (00_scope.md R16). -/
def respond (ret : Bool) (cause : Cause) (s : State) : State :=
  { s with rsp := s.rsp ++ [response ret cause] }

/-- `1 - ORIENT` (41_bulk_ops.md R94). -/
def Orientation.toggle : Orientation → Orientation
  | .normal => .flipped
  | .flipped => .normal

end Sys2Proof.Machine
end

