-- ==== Sys2Proof/Machine/Frame.lean ====
section
/-! DEFINITION. The ASCII-hex encoder, the frame encoder with its checksum, and SEND
(43_send_frame.md). A frame is a function of the parameters and `BUF` alone (R115). -/

namespace Sys2Proof.Machine

/-- `hexdigit(n)` for a nibble: `'0' + n` if `n ≤ 9`, else `'A' + (n - 10)` (43_send_frame.md R116). -/
def hexDigit (n : Nat) : Byte :=
  if n ≤ 9 then BitVec.ofNat 8 (0x30 + n) else BitVec.ofNat 8 (0x41 + (n - 10))

/-- `hex2(b)` for a byte: high nibble first (43_send_frame.md R117; 20_memory.md R48). -/
def hex2 (b : Nat) : List Byte := [hexDigit (b / 16), hexDigit (b % 16)]

/-- `Σ s`: the sum of a byte sequence as an unbounded natural (00_scope.md R15). -/
def byteSum (bytes : List Byte) : Nat := (bytes.map BitVec.toNat).sum

/-- STX (43_send_frame.md R120). -/
def stx : Byte := 0x02

/-- ETX (43_send_frame.md R127). -/
def etx : Byte := 0x03

/-- `HEADER` (43_send_frame.md R118 to R120). -/
def header (p : Params) : List Byte :=
  stx :: (hex2 p.wire ++ hex2 (p.dataSize &&& 0xFF))

/-- Byte `i` of a column word, least significant first (20_memory.md R47). -/
def wordByte (w : ColumnWord) (i : Nat) : Nat := (w >>> (8 * i)) &&& 0xFF

/-- The hex text of one column word (43_send_frame.md R121). -/
def columnText (p : Params) (w : ColumnWord) : List Byte :=
  (List.range p.bpc).flatMap fun i => hex2 (wordByte w i)

/-- `PAYLOAD`: the columns in index order, no orientation transform (43_send_frame.md R121;
20_memory.md R49). -/
def payload (p : Params) (buf : List ColumnWord) : List Byte :=
  (List.range p.columns).flatMap fun c => columnText p (wordAt buf c)

/-- `sum = (Σ HEADER + crc + 1) & 0xFF` (43_send_frame.md R124). -/
def checkSum (p : Params) (crc : Nat) : Nat := (byteSum (header p) + crc + 1) &&& 0xFF

/-- `finalChecksum = ((sum XOR 0xFF) + 1) & 0xFF` (43_send_frame.md R125). -/
def finalChecksum (p : Params) (crc : Nat) : Nat := ((checkSum p crc ^^^ 0xFF) + 1) &&& 0xFF

/-- `FOOTER` (43_send_frame.md R127). -/
def footer (p : Params) (crc : Nat) : List Byte := etx :: hex2 (finalChecksum p crc)

/-- `FRAME = HEADER ++ PAYLOAD ++ FOOTER` with `crc = Σ PAYLOAD` (43_send_frame.md R122, R127). -/
def frame (p : Params) (buf : List ColumnWord) : List Byte :=
  header p ++ payload p buf ++ footer p (byteSum (payload p buf))

/-- Present the frame from byte `pos` on: it completes, fails, or waits for the transport's next
answer with the block held (43_send_frame.md R128, R130, R131; notes/assumptions/7.md). -/
def resumeSend (pos : Nat) (s : State) : State :=
  let t := transmit ((frame s.params s.buf).drop pos) s.answers
  let after := { s with tx := s.tx ++ t.sent, answers := t.rest }
  match t.status with
  | .allTaken => respond true .none { after with sending := none }
  | .failed => respond false .writeFail { after with sending := none }
  | .stalled => { after with sending := some (pos + t.sent.length) }

/-- `SEND` (43_send_frame.md R128): the transport's presence is sampled once, at the start (R129). -/
def execSend (s : State) : Host.Outcome State Fault Refusal :=
  if s.attached then .next (resumeSend 0 s) else .next (respond false .noTransport s)

end Sys2Proof.Machine
end

