-- ==== Sys2Proof/Machine/Speed.lean ====
section
/-! DEFINITION. The optional speed unit, outside the hardware command set (44_speed_control.md).
It reads and writes `SPEED` only; what it returns goes to `spd` (notes/assumptions/10.md). -/

namespace Sys2Proof.Machine

/-- The floor 0.05 = 1/20 (44_speed_control.md R140, R141). -/
def speedFloor : Rat := 1 / 20

/-- `set_speed_factor(f)`: a non-positive factor is replaced by the floor (44_speed_control.md R141). -/
def setSpeedFactor (f : Rat) (s : State) : State :=
  { s with speed := if 0 < f then f else speedFloor }

/-- `get_speed_factor()` (44_speed_control.md R142). -/
def getSpeedFactor (s : State) : State :=
  { s with spd := s.spd ++ [s.speed] }

/-- `adjust_delay(d) = d * SPEED` (44_speed_control.md R143). -/
def adjustDelay (d : Rat) (s : State) : State :=
  { s with spd := s.spd ++ [d * s.speed] }

end Sys2Proof.Machine
end

