-- ==== Sys2Proof/Machine/Command.lean ====
section
/-! DEFINITION. What the next step does: resume a stalled SEND, take the caller's next move, or
stay idle (20_memory.md R54; 60_exceptions.md R167). -/

namespace Sys2Proof.Machine

/-- What a step comes to before a command is executed. -/
inductive Action where
  /-- The step is complete with this state. -/
  | done (s : State)
  /-- The command is to be executed on this state. -/
  | run (i : Instr) (s : State)

/-- A packet on `CMD`: decoded, or answered as `ILLEGAL` before any operand is looked at
(60_exceptions.md R153, R154 (1)). -/
def takePacket (bytes : List Byte) (s : State) : Action :=
  match decode s.params.xb bytes with
  | .ok i => .run i s
  | .error _ => .done (respond false .illegal s)

/-- One move of the caller while the block is idle (60_exceptions.md R167). -/
def takeMove (m : CallerMove) (s : State) : Action :=
  match m with
  | .packet bytes => takePacket bytes s
  | .attach present => .done { s with attached := present }
  | .reset => .done (resetBlock s)
  | .setSpeed f => .done (setSpeedFactor f s)
  | .getSpeed => .done (getSpeedFactor s)
  | .adjustDelay d => .done (adjustDelay d s)

/-- A `SEND` under way holds the block (20_memory.md R54); else the caller's next move is taken;
with none the block is idle and "holds its state" (60_exceptions.md R166). -/
def nextAction (s : State) : Action :=
  match s.sending with
  | some pos => .done (resumeSend pos s)
  | none =>
    match s.caller with
    | [] => .done s
    | m :: moves => takeMove m { s with caller := moves }

/-- Present a packet as the caller's next move to an idle block: what a loader of packets does. -/
def presentPacket (bytes : List Byte) (s : State) : State :=
  { s with sending := none, caller := .packet bytes :: s.caller }

end Sys2Proof.Machine
end

