-- ==== Sys2Proof/Machine/Bulk.lean ====
section
/-! DEFINITION. The operand-less operations FILL_ALL, ERASE_ALL, TOGGLE_ORIENTATION
(41_bulk_ops.md). None of them can fail (60_exceptions.md R152). -/

namespace Sys2Proof.Machine

/-- `FILL_ALL`: light every dot (41_bulk_ops.md R91). -/
def execFillAll (s : State) : Host.Outcome State Fault Refusal :=
  .next (respond true .none (writeAllWords s (litWord s.params)))

/-- `ERASE_ALL`: darken every dot (41_bulk_ops.md R92). -/
def execEraseAll (s : State) : Host.Outcome State Fault Refusal :=
  .next (respond true .none (writeAllWords s 0))

/-- `TOGGLE_ORIENTATION`: turn the coordinate mapping by 180° (41_bulk_ops.md R94). -/
def execToggleOrientation (s : State) : Host.Outcome State Fault Refusal :=
  .next (respond true .none { s with orient := s.orient.toggle })

end Sys2Proof.Machine
end

