-- ==== Sys2Proof/Machine/Operands.lean ====
section
/-! DEFINITION. The one addressing mode (40_dot_ops.md R80): the coordinate mapper with its
orientation transform and bounds check (20_memory.md R42, R43), and the dot accesses through it. -/

namespace Sys2Proof.Machine

/-- The orientation transform, computed in the integers without wrap (20_memory.md R42). -/
def orientPoint (p : Params) (o : Orientation) (col row : Int) : Int × Int :=
  match o with
  | .normal => (col, row)
  | .flipped => (p.columns - 1 - col, p.rows - 1 - row)

/-- The bounds check of a transformed point (20_memory.md R43). -/
def boundsCheck (p : Params) (pt : Int × Int) : Option (Nat × Nat) :=
  if 0 ≤ pt.1 ∧ pt.1 < p.columns ∧ 0 ≤ pt.2 ∧ pt.2 < p.rows then
    some (pt.1.toNat, pt.2.toNat)
  else none

/-- `Map(col,row)`: the transform, then the bounds check (20_memory.md R43). -/
def mapDot (s : State) (col row : Int) : Option (Nat × Nat) :=
  boundsCheck s.params (orientPoint s.params s.orient col row)

/-- The dot of a logical coordinate through an operation on one word's bit: the state after it,
`none` out of range (40_dot_ops.md R80: it "touches bit `r` of `BUF[c]` and nothing else"). -/
def modifyDot (s : State) (col row : Int) (f : ColumnWord → Nat → ColumnWord) : Option State :=
  match mapDot s col row with
  | none => none
  | some (c, r) => some (writeWord s c (f (wordAt s.buf c) r))

/-- `Set(col, row, state)` without its response (40_dot_ops.md R81). -/
def setDot (s : State) (col row : Int) (state : Bool) : Option State :=
  modifyDot s col row (if state then setBit else clearBit)

/-- The dot a logical coordinate reaches, `none` out of range (40_dot_ops.md R82). -/
def readDot (s : State) (col row : Int) : Option Bool :=
  match mapDot s col row with
  | none => none
  | some (c, r) => some (s.dot c r)

/-- The response of a mutating dot operation: done, or out of range with nothing changed
(40_dot_ops.md R81, R83; 60_exceptions.md R151 (a)). -/
def answerMutation (s : State) (after : Option State) : State :=
  match after with
  | none => respond false .outOfRange s
  | some t => respond true .none t

end Sys2Proof.Machine
end

