-- ==== Sys2Proof/Machine/Dot.lean ====
section
/-! DEFINITION. The dot operations SET, GET, INVERT (40_dot_ops.md). -/

namespace Sys2Proof.Machine

/-- `SET col, row, state` (40_dot_ops.md R81). -/
def execSet (col row : Int) (state : Bool) (s : State) : Host.Outcome State Fault Refusal :=
  .next (answerMutation s (setDot s col row state))

/-- `GET col, row` (40_dot_ops.md R82). -/
def execGet (col row : Int) (s : State) : Host.Outcome State Fault Refusal :=
  match readDot s col row with
  | none => .next (respond false .outOfRange s)
  | some v => .next (respond v .none s)

/-- `INVERT col, row` (40_dot_ops.md R83). -/
def execInvert (col row : Int) (s : State) : Host.Outcome State Fault Refusal :=
  .next (answerMutation s (modifyDot s col row flipBit))

end Sys2Proof.Machine
end

