-- ==== Sys2Proof/Machine/Text.lean ====
section
/-! DEFINITION. The glyph rasterizer WRITE_TEXT (42_write_text.md R100 to R109). -/

namespace Sys2Proof.Machine

/-- `Set(x, y, 1)` "with its response discarded" (42_write_text.md R103). -/
def plot (s : State) (x y : Int) : State := (setDot s x y true).getD s

/-- The lit bits of one glyph column at logical column `x`, bit `k` at row `row + k`
(42_write_text.md R103). -/
def drawColumn (x row : Int) (bits : BitVec 7) (s : State) : State :=
  (List.range 7).foldl (fun t (k : Nat) => if bits.getLsbD k then plot t x (row + k) else t) s

/-- One glyph at logical column `cur`; columns beyond the right edge are skipped, not wrapped
(42_write_text.md R103, R106). -/
def drawGlyph (cur row : Int) (g : Glyph) (s : State) : State :=
  (List.range 5).foldl
    (fun t (i : Nat) =>
      if cur + i ≤ (t.params.columns : Int) - 1 then drawColumn (cur + i) row (g.column i) t else t)
    s

/-- One character cell: an unsupported character draws nothing (42_write_text.md R103, R108). -/
def drawChar (cur row : Int) (ch : Byte) (s : State) : State :=
  match s.params.font.glyph ch with
  | none => s
  | some g => drawGlyph cur row g s

/-- The characters left to right, 6 columns of advance each, drawn or not (42_write_text.md R103). -/
def drawText (row : Int) : Int → List Byte → State → State
  | _, [], s => s
  | cur, ch :: text, s => drawText row (cur + 6) text (drawChar cur row ch s)

/-- `WRITE_TEXT text, col, row`: erase, then draw (42_write_text.md R103, R105). -/
def execWriteText (col row : Int) (text : List Byte) (s : State) :
    Host.Outcome State Fault Refusal :=
  .next (respond true .none (drawText row col text (writeAllWords s 0)))

end Sys2Proof.Machine
end

