-- ==== Sys2Proof/Machine/Dispatch.lean ====
section
/-! DEFINITION. The meaning of each command, one arm per constructor of Instr (30_encoding.md R63). -/

namespace Sys2Proof.Machine

/-- Execute one decoded command as one atomic transition (00_scope.md R17). -/
def exec (i : Instr) (s : State) : Host.Outcome State Fault Refusal :=
  match i with
  | .set col row state => Sys2Proof.Machine.execSet col row state s
  | .get col row => Sys2Proof.Machine.execGet col row s
  | .invert col row => Sys2Proof.Machine.execInvert col row s
  | .fillAll => Sys2Proof.Machine.execFillAll s
  | .eraseAll => Sys2Proof.Machine.execEraseAll s
  | .toggleOrientation => Sys2Proof.Machine.execToggleOrientation s
  | .writeText col row text => Sys2Proof.Machine.execWriteText col row text s
  | .send => Sys2Proof.Machine.execSend s

end Sys2Proof.Machine
end

