-- ==== Sys2Proof/Machine/Step.lean ====
section
/-! DEFINITION. One step of the machine, and the placing of an opcode-table word as the caller's
next packet. -/

namespace Sys2Proof.Machine

/-- One step. With illegal parameters "no instance exists" and the step is refused (00_scope.md R7;
notes/assumptions/12.md). -/
def step (s : State) : Host.Outcome State Fault Refusal :=
  if s.params.legal then
    match nextAction s with
    | .done t => .next t
    | .run i t => exec i t
  else .refused .noInstance

/-- `s` with the packet of an opcode-table word as the caller's next move to an idle block
(notes/assumptions/8.md). -/
def State.withFetchWord (s : State) (nbits w : Nat) : State :=
  presentPacket (tablePacket nbits w) s

end Sys2Proof.Machine
end

