-- ==== Sys2Proof/Safety.lean ====
section
/-! DEFINITION. The terms the claims use: the canonical form of the buffer, the invariant of the
machine, the exact illegal packets, and SEND as the byte-by-byte pseudocode of 43_send_frame.md R128. -/

namespace Sys2Proof.Machine

/-- The one form of `BUF`: exactly `COLUMNS` words, each below `2^ROWS` (10_state.md R21, R23).
Equal buffers are then equal data. -/
def Buffer.wf (p : Params) (buf : List ColumnWord) : Bool :=
  decide (buf.length = p.columns) && buf.all fun w => decide (w < 2 ^ p.rows)

/-- What holds at reset and every step keeps: the instance exists, the buffer has its form,
`SPEED` is positive (44_speed_control.md R140), and a `SEND` under way has bytes left to present
(10_state.md R30). -/
def State.Inv (s : State) : Prop :=
  s.params.legal = true ∧ Buffer.wf s.params s.buf = true ∧ 0 < s.speed ∧
    ∀ pos, s.sending = some pos → pos < s.params.frameLen

/-- A logical coordinate of the display: `0 ≤ col < COLUMNS`, `0 ≤ row < ROWS` (00_scope.md R19). -/
def inRange (p : Params) (col row : Int) : Prop :=
  0 ≤ col ∧ col < p.columns ∧ 0 ≤ row ∧ row < p.rows

/-- The state is that of an idle block with a legal instance, about to take the move `m` before
`moves` (60_exceptions.md R167). -/
def Awaits (s : State) (m : CallerMove) (moves : List CallerMove) : Prop :=
  s.params.legal = true ∧ s.sending = none ∧ s.caller = m :: moves

/-- Physical dot `(c,r)` is one the character `ch` lights when its cell starts at logical column
`cur` with base row `row`: a set bit `k` of its glyph's column `i` maps there (42_write_text.md R100,
R104). An unsupported character lights none. -/
def charLights (s : State) (cur row : Int) (ch : Byte) (c r : Nat) : Prop :=
  ∃ g, s.params.font.glyph ch = some g ∧ ∃ i k : Nat, i < 5 ∧ k < 7 ∧
    (g.column i).getLsbD k = true ∧ mapDot s (cur + i) (row + k) = some (c, r)

/-- Physical dot `(c,r)` is one the text lights: some character `n` lights it from logical column
`col + 6*n` (42_write_text.md R104). -/
def textLights (s : State) (col row : Int) (text : List Byte) (c r : Nat) : Prop :=
  ∃ (n : Nat) (ch : Byte), text[n]? = some ch ∧ charLights s (col + 6 * n) row ch c r

/-- A packet is `ILLEGAL`, as 30_encoding.md R66 lists it for `XW = 16`: (a) empty, (b) an
unassigned opcode, (c) a wrong length, (d) a short text packet, (e) a bad state byte. -/
def isIllegal : List Byte → Prop
  | [] => True
  | op :: rest =>
    op.toNat = 0x00 ∨ 0x09 ≤ op.toNat ∨
    (op.toNat ∈ [0x04, 0x05, 0x06, 0x08] ∧ rest.length + 1 ≠ 1) ∨
    (op.toNat ∈ [0x02, 0x03] ∧ rest.length + 1 ≠ 5) ∨
    (op.toNat = 0x01 ∧ rest.length + 1 ≠ 6) ∨
    (op.toNat = 0x07 ∧ rest.length + 1 < 5) ∨
    (op.toNat = 0x01 ∧ rest.length + 1 = 6 ∧ rest[4]? ≠ some 0x00 ∧ rest[4]? ≠ some 0x01)

/-- `sext_16(hi * 256 + lo)`, written out: `v` if `v < 32768`, else `v - 65536`
(30_encoding.md R62). -/
def signed16 (lo hi : Byte) : Int :=
  if hi.toNat * 256 + lo.toNat < 32768 then hi.toNat * 256 + lo.toNat
  else hi.toNat * 256 + lo.toNat - 65536

/-- Commands presented one after another, each on the state the one before it left
(20_memory.md R53). -/
def execAll : List Instr → State → Host.Outcome State Fault Refusal
  | [], s => .next s
  | i :: commands, s =>
    match exec i s with
    | .next t => execAll commands t
    | .fault r => .fault r
    | .refused r => .refused r

/-- Commands that neither toggle the orientation nor write the dot at logical `(col,row)`: what may
stand between a write and the read that sees it (40_dot_ops.md R84). -/
def sparesDot (col row : Int) : Instr → Prop
  | .set col' row' _ => ¬ (col' = col ∧ row' = row)
  | .get _ _ => True
  | .invert col' row' => ¬ (col' = col ∧ row' = row)
  | .fillAll => False
  | .eraseAll => False
  | .toggleOrientation => False
  | .writeText _ _ _ => False
  | .send => True

/-- A `SEND` in the pseudocode's own order: bytes go out one by one while `crc` accumulates
(43_send_frame.md R128; 10_state.md R30). -/
structure Stream where
  sent : List Byte
  rest : List TxAnswer
  status : TxStatus
  crc : Nat
deriving DecidableEq, Repr

/-- `emit(b)`, nothing once a write failed or stalled; a payload byte also adds to `crc`. -/
def Stream.emit (counts : Bool) (t : Stream) (b : Byte) : Stream :=
  match t.status, t.rest with
  | .allTaken, .ok :: rest =>
    ⟨t.sent ++ [b], rest, .allTaken, if counts then t.crc + b.toNat else t.crc⟩
  | .allTaken, .fail :: rest => ⟨t.sent, rest, .failed, t.crc⟩
  | .allTaken, .stall :: rest => ⟨t.sent, rest, .stalled, t.crc⟩
  | .allTaken, [] => ⟨t.sent, [], .stalled, t.crc⟩
  | _, _ => t

/-- The three loops of 43_send_frame.md R128: header, payload with its running `crc`, footer. -/
def streamFrame (p : Params) (buf : List ColumnWord) (answers : List TxAnswer) : Stream :=
  let t₀ : Stream := ⟨[], answers, .allTaken, 0⟩
  let t₁ := (header p).foldl (Stream.emit false) t₀
  let t₂ := (List.range p.columns).foldl
    (fun t c => (List.range p.bpc).foldl
      (fun t i => (hex2 (wordByte (wordAt buf c) i)).foldl (Stream.emit true) t) t) t₁
  (footer p t₂.crc).foldl (Stream.emit false) t₂

end Sys2Proof.Machine
end

