-- ==== Sys2Proof/Certificates/Slice0/Obligations.lean ====
section
/-! DEFINITION. The statements for the provers. Each docstring names the part of spec/ it formalises;
where a clause rests on a decision of the spec's own (92_eei_decisions.md) or on a choice of this
model (notes/assumptions/), it says so. -/

open Sys2Proof Sys2Proof.Machine

/-! ### Packets and responses -/

/-- 30_encoding.md R61 to R63 and 95_test_vectors.md V22: one word of every opcode, written out from
the packet formats, decodes to its command, and the four kinds of wrong packet are refused. The
encoding is the spec's own decision D5. -/
def Obligations.PublishedPacketsDecode : Prop :=
  decode 2 [0x01, 0x01, 0x00, 0x07, 0x00, 0x01] = .ok (.set 1 7 true) ∧
  decode 2 [0x01, 0x2C, 0x01, 0xFE, 0xFF, 0x00] = .ok (.set 300 (-2) false) ∧
  decode 2 [0x02, 0x05, 0x00, 0x05, 0x00] = .ok (.get 5 5) ∧
  decode 2 [0x03, 0x00, 0x00, 0x10, 0x00] = .ok (.invert 0 16) ∧
  decode 2 [0x04] = .ok .fillAll ∧
  decode 2 [0x05] = .ok .eraseAll ∧
  decode 2 [0x06] = .ok .toggleOrientation ∧
  decode 2 [0x07, 0xFE, 0xFF, 0x01, 0x00, 0x41, 0x3F, 0x42] =
    .ok (.writeText (-2) 1 [0x41, 0x3F, 0x42]) ∧
  decode 2 [0x08] = .ok .send ∧
  decode 2 [] = .error .emptyPacket ∧
  decode 2 [0x09] = .error .unassignedOpcode ∧
  decode 2 [0x04, 0x00] = .error .wrongLength ∧
  decode 2 [0x07, 0x00, 0x00, 0x00] = .error .shortText ∧
  decode 2 [0x01, 0x01, 0x00, 0x07, 0x00, 0x02] = .error .badState

/-- 30_encoding.md sections 1 to 4: for every coordinate width of whole bytes, decoding the packet
of a command that fits it gives the command back, whatever its operands (decisions D4, D5). -/
def Obligations.DecodingAnEncodingReturnsTheCommand : Prop :=
  ∀ (xb : Nat) (i : Instr), 1 ≤ xb → wellFormed (8 * xb) i = true → decode xb (encode xb i) = .ok i

/-- 30_encoding.md sections 1 to 4: a packet that decodes to a command is the packet of that
command, which fits the width; so each command has one packet (decisions D4, D5). -/
def Obligations.EncodingADecodedPacketReturnsIt : Prop :=
  ∀ (xb : Nat) (p : List Byte) (i : Instr), 1 ≤ xb → decode xb p = .ok i →
    encode xb i = p ∧ wellFormed (8 * xb) i = true

/-- 30_encoding.md section 4 (the list (a) to (e) of illegal packets, decision D9): at `XW = 16` the
decoder refuses exactly the packets listed. -/
def Obligations.IllegalPacketsAreExactlyTheListedOnes : Prop :=
  ∀ p : List Byte, (∃ e, decode 2 p = .error e) ↔ isIllegal p

/-- 30_encoding.md section 3 (the opcode map, decision D5): at `XW = 16` a packet decodes to a row's
command exactly when it has the row's length and `(packet & mask) = match`. -/
def Obligations.OpcodeTableRowsMatchByMaskAndLength : Prop :=
  ∀ p : List Byte,
    ((∃ col row state, decode 2 p = .ok (.set col row state)) ↔
      p.length = 6 ∧ leNat p &&& 0xFE00000000FF = 0x000000000001) ∧
    ((∃ col row, decode 2 p = .ok (.get col row)) ↔
      p.length = 5 ∧ leNat p &&& 0x00000000FF = 0x0000000002) ∧
    ((∃ col row, decode 2 p = .ok (.invert col row)) ↔
      p.length = 5 ∧ leNat p &&& 0x00000000FF = 0x0000000003) ∧
    (decode 2 p = .ok .fillAll ↔ p.length = 1 ∧ leNat p &&& 0xFF = 0x04) ∧
    (decode 2 p = .ok .eraseAll ↔ p.length = 1 ∧ leNat p &&& 0xFF = 0x05) ∧
    (decode 2 p = .ok .toggleOrientation ↔ p.length = 1 ∧ leNat p &&& 0xFF = 0x06) ∧
    ((∃ col row text, decode 2 p = .ok (.writeText col row text)) ↔
      5 ≤ p.length ∧ leNat p &&& 0xFF = 0x07) ∧
    (decode 2 p = .ok .send ↔ p.length = 1 ∧ leNat p &&& 0xFF = 0x08)

/-- 30_encoding.md section 2 (operand assembly, decisions D4, D5, D6, D24): at `XW = 16` the packets
of a command with a point, and its operands: `col` is `sext_16(p[2]*256 + p[1])`, `row` is
`sext_16(p[4]*256 + p[3])`, the state byte is 0x00 or 0x01, and the text is every byte from `p[5]`
on, in order. -/
def Obligations.OperandsAreReadFromTheirBytes : Prop :=
  ∀ (p : List Byte) (col row : Int),
    (∀ state, decode 2 p = .ok (.set col row state) ↔
      ∃ c₀ c₁ r₀ r₁, p = [0x01, c₀, c₁, r₀, r₁, if state then 0x01 else 0x00] ∧
        col = signed16 c₀ c₁ ∧ row = signed16 r₀ r₁) ∧
    (decode 2 p = .ok (.get col row) ↔
      ∃ c₀ c₁ r₀ r₁, p = [0x02, c₀, c₁, r₀, r₁] ∧
        col = signed16 c₀ c₁ ∧ row = signed16 r₀ r₁) ∧
    (decode 2 p = .ok (.invert col row) ↔
      ∃ c₀ c₁ r₀ r₁, p = [0x03, c₀, c₁, r₀, r₁] ∧
        col = signed16 c₀ c₁ ∧ row = signed16 r₀ r₁) ∧
    (∀ text, decode 2 p = .ok (.writeText col row text) ↔
      ∃ c₀ c₁ r₀ r₁, p = 0x07 :: c₀ :: c₁ :: r₀ :: r₁ :: text ∧
        col = signed16 c₀ c₁ ∧ row = signed16 r₀ r₁)

/-- 60_exceptions.md section 1 (an `ILLEGAL` packet, decision D9): it is answered `0/4` before any
operand is looked at, and changes nothing else. That the packet is taken from `caller` is this
model's form of the CMD port (log 8). -/
def Obligations.IllegalPacketChangesNothing : Prop :=
  ∀ (s : State) (p : List Byte) (moves : List CallerMove) (e : DecodeError),
    Awaits s (.packet p) moves → decode s.params.xb p = .error e →
    step s = .next { s with caller := moves, rsp := s.rsp ++ [0x4] }

/-- 30_encoding.md section 6 (decision D7): `ret` is bit 3 of a response and `cause`, 0 to 4, its
bits 2:0. -/
def Obligations.ResponseWordCarriesRetAndCause : Prop :=
  (∀ (ret : Bool) (cause : Cause), (response ret cause).getLsbD 3 = ret ∧
    (response ret cause).extractLsb' 0 3 = cause.code) ∧
  Cause.none.code = 0 ∧ Cause.outOfRange.code = 1 ∧ Cause.noTransport.code = 2 ∧
  Cause.writeFail.code = 3 ∧ Cause.illegal.code = 4

/-! ### The coordinate mapper -/

/-- 20_memory.md R42, R43: the transform in the integers, then the bounds check; a display built with
5 rows flips about 8, so logical row 0 maps to physical row 7. -/
def Obligations.MapperTransformsThenChecksBounds : Prop :=
  (∀ (s : State) (col row col' row' : Int),
    (s.orient = .flipped →
      col' = s.params.columns - 1 - col ∧ row' = s.params.rows - 1 - row) →
    (s.orient = .normal → col' = col ∧ row' = row) →
    (0 ≤ col' ∧ col' < s.params.columns ∧ 0 ≤ row' ∧ row' < s.params.rows →
      mapDot s col row = some (col'.toNat, row'.toNat)) ∧
    (¬ (0 ≤ col' ∧ col' < s.params.columns ∧ 0 ≤ row' ∧ row' < s.params.rows) →
      mapDot s col row = none)) ∧
  (∀ (s : State) (col : Int), s.params.rowsReq = 5 → s.orient = .flipped →
    0 ≤ col → col < s.params.columns →
    ∃ c, mapDot s col 0 = some (c, 7))

/-- 20_memory.md section 2, the mapper's properties (a) to (d), which the spec marks as derived: the
verdict is that of the logical coordinate itself; the mapper is injective and onto on coordinates in
range; the flipped transform is its own inverse; the two corners change places. -/
def Obligations.MapperIsAVerdictPreservingBijection : Prop :=
  (∀ (s : State) (col row : Int), mapDot s col row = none ↔ ¬ inRange s.params col row) ∧
  (∀ (s : State) (col row col' row' : Int), inRange s.params col row →
    mapDot s col row = mapDot s col' row' → col = col' ∧ row = row') ∧
  (∀ (s : State) (c r : Nat), c < s.params.columns → r < s.params.rows →
    ∃ col row, inRange s.params col row ∧ mapDot s col row = some (c, r)) ∧
  (∀ (p : Params) (col row : Int),
    orientPoint p .flipped (orientPoint p .flipped col row).1 (orientPoint p .flipped col row).2 =
      (col, row)) ∧
  (∀ s : State, s.orient = .flipped → 1 ≤ s.params.columns → 1 ≤ s.params.rows →
    mapDot s 0 0 = some (s.params.columns - 1, s.params.rows - 1) ∧
    mapDot s (s.params.columns - 1) (s.params.rows - 1) = some (0, 0))

/-! ### Dot operations -/

/-- 40_dot_ops.md section 2: an in-range SET completes with response `1/0` (cause: decision D7),
gives the addressed dot the operand's value and leaves every other dot and every other part of the
state as it was. -/
def Obligations.SetWritesExactlyOneDot : Prop :=
  ∀ (s : State) (col row : Int) (state : Bool), s.buf.length = s.params.columns →
    inRange s.params col row →
    ∃ (t : State) (c r : Nat), exec (.set col row state) s = .next t ∧
      t = { s with buf := t.buf, rsp := s.rsp ++ [0x8] } ∧ t.buf.length = s.buf.length ∧
      orientPoint s.params s.orient col row = ((c : Int), (r : Int)) ∧
      ∀ c' r', t.dot c' r' = if c' = c ∧ r' = r then state else s.dot c' r'

/-- 40_dot_ops.md section 4: an in-range INVERT completes with response `1/0` (cause: decision D7),
complements the addressed dot and leaves every other dot and every other part of the state as it
was. -/
def Obligations.InvertComplementsExactlyOneDot : Prop :=
  ∀ (s : State) (col row : Int), s.buf.length = s.params.columns →
    inRange s.params col row →
    ∃ (t : State) (c r : Nat), exec (.invert col row) s = .next t ∧
      t = { s with buf := t.buf, rsp := s.rsp ++ [0x8] } ∧ t.buf.length = s.buf.length ∧
      orientPoint s.params s.orient col row = ((c : Int), (r : Int)) ∧
      ∀ c' r', t.dot c' r' = if c' = c ∧ r' = r then !s.dot c' r' else s.dot c' r'

/-- 40_dot_ops.md section 3: an in-range GET completes, answers the addressed dot with cause 0
(decision D7), and changes nothing else. -/
def Obligations.GetReadsTheMappedDot : Prop :=
  ∀ (s : State) (col row : Int), inRange s.params col row →
    ∃ c r : Nat, orientPoint s.params s.orient col row = ((c : Int), (r : Int)) ∧
      exec (.get col row) s =
        .next { s with rsp := s.rsp ++ [if s.dot c r then 0x8 else 0x0] }

/-- 20_memory.md section 2 (out-of-range coordinates) with 60_exceptions.md section 1 (a): outside
the display, under either orientation, SET, GET and INVERT answer `0/1` (cause: decisions D7, D22)
and change nothing. -/
def Obligations.OutOfRangeDotCommandsChangeNothing : Prop :=
  ∀ (s : State) (col row : Int) (state : Bool), ¬ inRange s.params col row →
    exec (.set col row state) s = .next { s with rsp := s.rsp ++ [0x1] } ∧
    exec (.get col row) s = .next { s with rsp := s.rsp ++ [0x1] } ∧
    exec (.invert col row) s = .next { s with rsp := s.rsp ++ [0x1] }

/-- 40_dot_ops.md R84: GET after an in-range SET of the same coordinate returns the value set, under
either orientation, with any commands between them that neither toggle the orientation nor write
that dot. -/
def Obligations.ReadAfterWriteAcrossOtherCommands : Prop :=
  ∀ (s : State) (col row : Int) (state : Bool) (between : List Instr),
    s.buf.length = s.params.columns → inRange s.params col row →
    (∀ i ∈ between, sparesDot col row i) →
    ∃ t u w, execAll (.set col row state :: between) s = .next t ∧
      exec (.get col row) t = .next u ∧ u.rsp = t.rsp ++ [w] ∧ w.getLsbD 3 = state

/-- 40_dot_ops.md section 5 (the frame rule, which the spec marks as derived): after a SET or INVERT
at one coordinate, in range or not, GET at every other coordinate answers what it answered before,
and after one out of range GET answers everywhere what it answered before. -/
def Obligations.DotWritesLeaveOtherDotsReadable : Prop :=
  ∀ (s t : State) (i : Instr) (col row col' row' : Int), s.buf.length = s.params.columns →
    ((∃ state, i = .set col row state) ∨ i = .invert col row) → exec i s = .next t →
    (¬ (col' = col ∧ row' = row) ∨ ¬ inRange s.params col row) →
    ∃ w, exec (.get col' row') s = .next { s with rsp := s.rsp ++ [w] } ∧
      exec (.get col' row') t = .next { t with rsp := t.rsp ++ [w] }

/-- 40_dot_ops.md section 5 (orientation does not move data, which the spec marks as derived): a dot
set at `(col,row)` is read back, after one TOGGLE_ORIENTATION, at `(COLUMNS-1-col, ROWS-1-row)`. -/
def Obligations.ToggleReinterpretsDrawnDots : Prop :=
  ∀ (s : State) (col row : Int) (state : Bool), s.buf.length = s.params.columns →
    inRange s.params col row →
    ∃ t u w, execAll [.set col row state, .toggleOrientation] s = .next t ∧
      exec (.get (s.params.columns - 1 - col) (s.params.rows - 1 - row)) t = .next u ∧
      u.rsp = t.rsp ++ [w] ∧ w.getLsbD 3 = state

/-- 40_dot_ops.md section 4, corner cases (marked derived by the spec): two INVERTs of one in-range
coordinate restore the buffer; the two responses are all that is left. -/
def Obligations.InvertTwiceRestoresTheBuffer : Prop :=
  ∀ (s : State) (col row : Int), s.buf.length = s.params.columns → inRange s.params col row →
    execAll [.invert col row, .invert col row] s = .next { s with rsp := s.rsp ++ [0x8, 0x8] }

/-! ### Whole-buffer operations -/

/-- 41_bulk_ops.md section 1: FILL_ALL completes with `1/0` (decision D8), lights exactly the dots of
the display, rounded-up rows included, and changes nothing else. -/
def Obligations.FillAllLightsExactlyTheDisplay : Prop :=
  ∀ s : State, ∃ t, exec .fillAll s = .next t ∧
    t = { s with buf := List.replicate s.params.columns (2 ^ s.params.rows - 1),
                 rsp := s.rsp ++ [0x8] } ∧
    ∀ c r, t.dot c r = true ↔ c < s.params.columns ∧ r < s.params.rows

/-- 41_bulk_ops.md section 2: ERASE_ALL completes with `1/0` (decision D8), zeroes every word, so
that no dot is lit, and changes nothing else. -/
def Obligations.EraseAllDarkensEveryDot : Prop :=
  ∀ s : State, ∃ t, exec .eraseAll s = .next t ∧
    t = { s with buf := List.replicate s.params.columns 0, rsp := s.rsp ++ [0x8] } ∧
    ∀ c r, t.dot c r = false

/-- 41_bulk_ops.md section 2 (marked derived by the spec): after FILL_ALL, GET returns 1 in range and
0 out of range; after ERASE_ALL it returns 0 everywhere; both under either orientation. -/
def Obligations.GetAfterFillAndErase : Prop :=
  ∀ (s t : State) (col row : Int),
    (exec .fillAll s = .next t →
      ∃ w, exec (.get col row) t = .next { t with rsp := t.rsp ++ [w] } ∧
        (w.getLsbD 3 = true ↔ inRange s.params col row)) ∧
    (exec .eraseAll s = .next t →
      ∃ w, exec (.get col row) t = .next { t with rsp := t.rsp ++ [w] } ∧ w.getLsbD 3 = false)

/-- 41_bulk_ops.md section 3: TOGGLE_ORIENTATION completes with `1/0` (decision D8) and complements
the flag; buffer and everything else stay. Two of them leave only their two responses. -/
def Obligations.ToggleFlipsOrientationOnly : Prop :=
  ∀ s : State,
    (s.orient = .normal → exec .toggleOrientation s =
      .next { s with orient := .flipped, rsp := s.rsp ++ [0x8] }) ∧
    (s.orient = .flipped → exec .toggleOrientation s =
      .next { s with orient := .normal, rsp := s.rsp ++ [0x8] }) ∧
    execAll [.toggleOrientation, .toggleOrientation] s =
      .next { s with rsp := s.rsp ++ [0x8, 0x8] }

/-! ### The glyph rasterizer -/

/-- 42_write_text.md section 2 (the final buffer, which the spec marks as derived; response: decision
D8): WRITE_TEXT completes on every state and operand; afterwards the buffer has `COLUMNS` words and a
dot is lit exactly when a character's glyph has a set bit that the mapper puts there, character `n`
starting at column `col + 6*n`; nothing but the buffer and the response changes. -/
def Obligations.WriteTextDrawsExactlyTheGlyphDots : Prop :=
  ∀ (s : State) (col row : Int) (text : List Byte),
    ∃ t, exec (.writeText col row text) s = .next t ∧
      t = { s with buf := t.buf, rsp := s.rsp ++ [0x8] } ∧
      t.buf.length = s.params.columns ∧
      ∀ c r, t.dot c r = true ↔
        ∃ (n : Nat) (ch : Byte) (g : Glyph) (i k : Nat), text[n]? = some ch ∧
          s.params.font.glyph ch = some g ∧ i < 5 ∧ k < 7 ∧ (g.column i).getLsbD k = true ∧
          mapDot s (col + 6 * n + i) (row + k) = some (c, r)

/-- 42_write_text.md R110: `write_text("A", 0, 0)` on an 8-row display with at least 5 columns, in
normal orientation: column `i` of the glyph is word `i`, every other word is 0, whatever the buffer
held. -/
def Obligations.WriteTextOfAFillsTheFirstFiveColumns : Prop :=
  ∀ (s : State) (g : Glyph), s.orient = .normal → s.params.rows = 8 → 5 ≤ s.params.columns →
    s.params.font.glyph 0x41 = some g →
    ∃ t, exec (.writeText 0 0 [0x41]) s = .next t ∧
      (∀ i, i < 5 → wordAt t.buf i = (g.column i).toNat ∧ wordAt t.buf i < 128) ∧
      ∀ c, 5 ≤ c → wordAt t.buf c = 0

/-- 42_write_text.md section 2 (unsupported characters): an unsupported character anywhere in a text
lights nothing and moves the rest six columns on, and the response is the one of every WRITE_TEXT
(decision D8). -/
def Obligations.UnsupportedCharactersOnlyAdvance : Prop :=
  ∀ (s : State) (col row : Int) (before after : List Byte) (ch : Byte),
    s.params.font.glyph ch = none →
    ∃ t, exec (.writeText col row (before ++ ch :: after)) s = .next t ∧
      t.rsp = s.rsp ++ [0x8] ∧
      ∀ c r, t.dot c r = true ↔
        textLights s col row before c r ∨
          textLights s (col + 6 * (before.length + 1)) row after c r

/-- 42_write_text.md R105: the erase is unconditional and comes first. Nothing of the old buffer
matters; with an empty text, a text of unsupported characters only, or a text wholly off the panel
(no dot of any of its cells is in range), under either orientation, the buffer ends all zero. -/
def Obligations.WriteTextAlwaysErasesFirst : Prop :=
  ∀ (s : State) (col row : Int) (text : List Byte),
    (∀ buf, exec (.writeText col row text) { s with buf := buf } =
      exec (.writeText col row text) s) ∧
    (text = [] ∨ (∀ ch ∈ text, s.params.font.glyph ch = none) ∨
        (∀ n i k : Nat, n < text.length → i < 5 → k < 7 →
          ¬ inRange s.params (col + 6 * n + i) (row + k)) →
      ∃ t, exec (.writeText col row text) s = .next t ∧
        t.buf = List.replicate s.params.columns 0)

/-! ### The hex encoder and the frame -/

/-- 43_send_frame.md R116, R117: the table of the sixteen digits; a byte is two digits, high nibble
first; each is in 0x30..0x39 or 0x41..0x46 and the two add up to between 96 and 140; the source's
four examples. -/
def Obligations.HexPairsFollowTheDigitTable : Prop :=
  (List.range 16).map hexDigit = [0x30, 0x31, 0x32, 0x33, 0x34, 0x35, 0x36, 0x37, 0x38, 0x39,
    0x41, 0x42, 0x43, 0x44, 0x45, 0x46] ∧
  (∀ n, (n ≤ 9 → hexDigit n = BitVec.ofNat 8 (0x30 + n)) ∧
    (10 ≤ n → n ≤ 15 → hexDigit n = BitVec.ofNat 8 (0x41 + (n - 10)))) ∧
  (∀ b : Nat, b < 256 → hex2 b = [hexDigit (b / 16), hexDigit (b % 16)] ∧
    (∀ x ∈ hex2 b, (0x30 ≤ x.toNat ∧ x.toNat ≤ 0x39) ∨ (0x41 ≤ x.toNat ∧ x.toNat ≤ 0x46)) ∧
    96 ≤ byteSum (hex2 b) ∧ byteSum (hex2 b) ≤ 140) ∧
  hex2 18 = [0x31, 0x32] ∧ hex2 1 = [0x30, 0x31] ∧ hex2 0 = [0x30, 0x30] ∧ hex2 217 = [0x44, 0x39]

/-- 43_send_frame.md R118, R119, R120: STX, the wire address, the low 8 bits of the data size, which
wrap while the payload keeps its `2 * DATA_SIZE` bytes; the header is constant for the life of the
instance; its value with the defaults. -/
def Obligations.HeaderCarriesAddressAndSize : Prop :=
  (∀ p : Params, header p = [0x02] ++ hex2 (p.addr + 16) ++ hex2 (p.dataSize &&& 0xFF) ∧
    p.dataSize = p.columns * p.bpc ∧ p.dataSize = p.rows * p.columns / 8) ∧
  (List.range' 1 16).map (fun a => hex2 (a + 16)) =
    [[0x31, 0x31], [0x31, 0x32], [0x31, 0x33], [0x31, 0x34], [0x31, 0x35], [0x31, 0x36],
     [0x31, 0x37], [0x31, 0x38], [0x31, 0x39], [0x31, 0x41], [0x31, 0x42], [0x31, 0x43],
     [0x31, 0x44], [0x31, 0x45], [0x31, 0x46], [0x32, 0x30]] ∧
  (∀ p : Params, (p.dataSize = 256 → (header p).drop 3 = [0x30, 0x30]) ∧
    (p.dataSize = 257 → (header p).drop 3 = [0x30, 0x31]) ∧
    (p.dataSize = 300 → (header p).drop 3 = [0x32, 0x43])) ∧
  (∀ (p : Params) (buf : List ColumnWord), (payload p buf).length = 2 * p.dataSize) ∧
  (∀ s t : State, step s = .next t → header t.params = header s.params) ∧
  header Params.default = [0x02, 0x31, 0x32, 0x35, 0x34]

/-- 43_send_frame.md R121 and 20_memory.md R47: the payload's length; the pair of byte `i` of column
`c`, least significant byte first, stands at position `c * BPC + i` of the data; the dot `(c,r)` is
bit `r mod 8` of the byte at position `c * BPC + (r div 8)`. -/
def Obligations.PayloadPlacesEveryDot : Prop :=
  ∀ (p : Params) (buf : List ColumnWord),
    (payload p buf).length = 2 * p.columns * p.bpc ∧
    (∀ c i, c < p.columns → i < p.bpc →
      ((payload p buf).drop (2 * (c * p.bpc + i))).take 2 =
        hex2 ((wordAt buf c >>> (8 * i)) &&& 0xFF)) ∧
    (∀ c r, c < p.columns → r < p.rows →
      ∃ b, b < 256 ∧ ((payload p buf).drop (2 * (c * p.bpc + r / 8))).take 2 = hex2 b ∧
        b.testBit (r % 8) = (wordAt buf c).testBit r)

/-- 43_send_frame.md R122, R124, R125: `crc` sums the payload's hex bytes only; `sum` adds the header,
STX included, and 1; the checksum is `((sum XOR 0xFF) + 1) & 0xFF`; an all-dark buffer gives
`crc = 96 * DATA_SIZE`, an all-lit one `140 * DATA_SIZE`. -/
def Obligations.ChecksumCoversHeaderAndPayloadText : Prop :=
  (∀ (p : Params) (buf : List ColumnWord) (crc sum chk : Nat), crc = byteSum (payload p buf) →
    sum = (byteSum (header p) + crc + 1) &&& 0xFF → chk = ((sum ^^^ 0xFF) + 1) &&& 0xFF →
    (header p).head? = some 0x02 ∧
    frame p buf = header p ++ payload p buf ++ [0x03] ++ hex2 chk) ∧
  (∀ p : Params, byteSum (payload p (List.replicate p.columns 0)) = 96 * p.dataSize ∧
    byteSum (payload p (List.replicate p.columns (2 ^ p.rows - 1))) = 140 * p.dataSize)

/-- 43_send_frame.md section 4, the consequences (a) to (d) of the two `+1` terms, which the spec
marks as derived. -/
def Obligations.ChecksumIsTheTwosComplement : Prop :=
  ∀ (p : Params) (crc : Nat),
    finalChecksum p crc = (256 - checkSum p crc) % 256 ∧
    (checkSum p crc + finalChecksum p crc) % 256 = 0 ∧
    (checkSum p crc = 0 → finalChecksum p crc = 0) ∧
    (byteSum (header p) + crc + 1 + finalChecksum p crc) % 256 = 0

/-- 43_send_frame.md section 4 and decision D16: an 8-bit accumulator that wraps modulo 256 after
every byte gives the same checksum as the unbounded sum. -/
def Obligations.EightBitAccumulatorGivesTheSameChecksum : Prop :=
  ∀ (p : Params) (bytes : List Byte),
    finalChecksum p (bytes.foldl (fun crc b => (crc + b.toNat) % 256) 0) =
      finalChecksum p (byteSum bytes)

/-- 43_send_frame.md R127: the footer, the frame's three parts and its length; every byte but STX at
position 0 and ETX at position `5 + PAYLOAD_LEN` is one of the sixteen digits; 0x02 and 0x03 occur
once each. -/
def Obligations.FrameHasFixedLayout : Prop :=
  ∀ (p : Params) (buf : List ColumnWord), p.legal = true →
    (∃ chk, chk < 256 ∧ chk = finalChecksum p (byteSum (payload p buf)) ∧
      frame p buf = header p ++ payload p buf ++ ([0x03] ++ hex2 chk)) ∧
    (frame p buf).length = 5 + 2 * p.columns * p.bpc + 3 ∧
    (frame p buf)[0]? = some 0x02 ∧ (frame p buf)[5 + p.payloadLen]? = some 0x03 ∧
    (∀ j b, j ≠ 0 → j ≠ 5 + p.payloadLen → (frame p buf)[j]? = some b →
      ∃ n, n < 16 ∧ b = hexDigit n) ∧
    (frame p buf).count 0x02 = 1 ∧ (frame p buf).count 0x03 = 1

/-- 43_send_frame.md R133: the source's worked scenario, every intermediate value of it. -/
def Obligations.WorkedScenarioFrame : Prop :=
  ∀ p : Params, p.columns = 1 → p.rowsReq = 8 → p.addr = 2 →
    p.wire = 18 ∧ hex2 p.wire = [0x31, 0x32] ∧ p.dataSize = 1 ∧
    hex2 (p.dataSize &&& 0xFF) = [0x30, 0x31] ∧
    header p = [0x02, 0x31, 0x32, 0x30, 0x31] ∧ byteSum (header p) = 198 ∧
    payload p [0] = [0x30, 0x30] ∧ byteSum (payload p [0]) = 96 ∧
    checkSum p 96 = 39 ∧ finalChecksum p 96 = 217 ∧ hex2 217 = [0x44, 0x39] ∧
    frame p [0] = [0x02, 0x31, 0x32, 0x30, 0x31, 0x30, 0x30, 0x03, 0x44, 0x39]

/-- 43_send_frame.md R115: a frame is a function of `ADDR`, `COLUMNS`, `ROWS` and `BUF`: two machines
that agree on those, with a transport that answers alike, put the same bytes on the wire, whatever
their orientation, speed, history or other parameters. -/
def Obligations.FrameDependsOnAddressSizeAndBufferAlone : Prop :=
  ∀ s s' : State, s.params.addr = s'.params.addr → s.params.columns = s'.params.columns →
    s.params.rows = s'.params.rows → s.buf = s'.buf → s.attached = s'.attached →
    s.answers = s'.answers →
    ∃ t t' bytes, exec .send s = .next t ∧ exec .send s' = .next t' ∧
      t.tx = s.tx ++ bytes ∧ t'.tx = s'.tx ++ bytes

/-! ### SEND and the transport -/

/-- 43_send_frame.md section 6: with a transport attached that takes every byte, SEND completes, puts
the whole frame on the wire, answers `1/0` (cause: decision D7) and changes nothing else. -/
def Obligations.SendEmitsTheWholeFrame : Prop :=
  ∀ (s : State) (rest : List TxAnswer), s.sending = none → s.attached = true →
    s.answers = List.replicate s.params.frameLen .ok ++ rest →
    exec .send s = .next { s with
      tx := s.tx ++ frame s.params s.buf, answers := rest, rsp := s.rsp ++ [0x8] }

/-- 43_send_frame.md section 6 (no transport, decision D10; cause: D7): SEND emits nothing, asks the
transport nothing, changes nothing and answers `0/2`. -/
def Obligations.SendWithoutTransportEmitsNothing : Prop :=
  ∀ s : State, s.attached = false →
    exec .send s = .next { s with rsp := s.rsp ++ [0x2] }

/-- 43_send_frame.md section 6 (write failure, decision D10; cause: D7): when the transport takes `k`
bytes and fails the next, whichever `k`, exactly those `k` bytes of the frame are on the wire, no
further answer is asked for, the buffer stays and the response is `0/3`. -/
def Obligations.SendStopsAtAFailedWrite : Prop :=
  ∀ (s : State) (k : Nat) (rest : List TxAnswer), s.sending = none → s.attached = true →
    k < s.params.frameLen → s.answers = List.replicate k .ok ++ .fail :: rest →
    exec .send s = .next { s with
      tx := s.tx ++ (frame s.params s.buf).take k, answers := rest, rsp := s.rsp ++ [0x3] }

/-- 43_send_frame.md section 6 (a stalled transport, decision D11), in this model's form (logs 6, 7):
when the transport takes `k` bytes and then does not answer, the block holds the SEND at byte `k`
with no response. -/
def Obligations.SendWaitsForAStalledTransport : Prop :=
  ∀ (s : State) (k : Nat) (rest : List TxAnswer), s.attached = true → k < s.params.frameLen →
    (s.answers = List.replicate k .ok ++ .stall :: rest →
      exec .send s = .next { s with
        tx := s.tx ++ (frame s.params s.buf).take k, answers := rest, sending := some k }) ∧
    (s.answers = List.replicate k .ok →
      exec .send s = .next { s with
        tx := s.tx ++ (frame s.params s.buf).take k, answers := [], sending := some k })

/-- 20_memory.md section 6 and 43_send_frame.md section 6 (decision D11): while a SEND is under way
no move of the caller is taken and the buffer cannot change; with a transport that never answers the
block hangs: the step leaves the state as it is. -/
def Obligations.StalledSendHoldsTheBlock : Prop :=
  (∀ (s t : State) (pos : Nat), s.sending = some pos → step s = .next t →
    t = { s with sending := t.sending, answers := t.answers, tx := t.tx, rsp := t.rsp }) ∧
  (∀ (s : State) (pos : Nat), s.params.legal = true → s.sending = some pos →
    pos < s.params.frameLen → s.answers = [] → step s = .next s)

/-- 43_send_frame.md section 6 with 00_scope.md R17 (decisions D10, D11), in this model's form (logs
6, 7): a SEND that the transport stalls any number of times and at any bytes, but never fails, ends
as the SEND of a prompt transport ends, after one more step than there were stalls. -/
def Obligations.StalledSendFinishesWhenAnswered : Prop :=
  ∀ (s : State) (moves : List CallerMove) (given rest : List TxAnswer),
    Awaits s (.packet [0x08]) moves → s.attached = true →
    s.answers = given ++ .ok :: rest → .fail ∉ given →
    given.count .ok + 1 = s.params.frameLen →
    Host.Core.run Sys2Proof.core (given.count .stall + 1) s = .next { s with
      caller := moves, answers := rest, tx := s.tx ++ frame s.params s.buf,
      rsp := s.rsp ++ [0x8] }

/-- 43_send_frame.md section 6 (the pseudocode of SEND; decisions D10, D16; cause: D7): presenting
the frame computed as a whole (log 15) does, under every sequence of answers, what the pseudocode
does byte by byte with a running `crc`: the same bytes on the wire, the same answers left, the same
end. That a stall leaves the block holding the SEND at its byte, with no response, is this model's
form of it (logs 6, 7). -/
def Obligations.SendFollowsTheBytewisePseudocode : Prop :=
  ∀ s : State, s.attached = true →
    ∃ t, exec .send s = .next t ∧
      t.tx = s.tx ++ (streamFrame s.params s.buf s.answers).sent ∧
      t.answers = (streamFrame s.params s.buf s.answers).rest ∧
      t = { s with tx := t.tx, answers := t.answers, sending := t.sending, rsp := t.rsp } ∧
      ((streamFrame s.params s.buf s.answers).status = .allTaken →
        t.sending = none ∧ t.rsp = s.rsp ++ [0x8]) ∧
      ((streamFrame s.params s.buf s.answers).status = .failed →
        t.sending = none ∧ t.rsp = s.rsp ++ [0x3]) ∧
      ((streamFrame s.params s.buf s.answers).status = .stalled →
        t.sending = some (streamFrame s.params s.buf s.answers).sent.length ∧ t.rsp = s.rsp)

/-! ### The speed unit -/

/-- 44_speed_control.md R141: a positive factor is stored as given, any other is replaced by 1/20;
nothing is reported and nothing else changes. -/
def Obligations.SpeedFactorClampsOnSign : Prop :=
  ∀ (s : State) (f : Rat),
    (0 < f → setSpeedFactor f s = { s with speed := f }) ∧
    (f ≤ 0 → setSpeedFactor f s = { s with speed := 1 / 20 })

/-- 44_speed_control.md, the rules of get and adjust and the source's two tests: get returns SPEED
(the factor last stored, or SPEED_INIT), adjust_delay returns `d * SPEED` and writes nothing, a
larger factor gives a longer delay. That the number returned is appended to the list `spd` is this
model's choice (log 10). -/
def Obligations.SpeedReadsBackAndScalesDelays : Prop :=
  (∀ s : State, getSpeedFactor s = { s with spd := s.spd ++ [s.speed] }) ∧
  (∀ (s : State) (d : Rat), adjustDelay d s = { s with spd := s.spd ++ [d * s.speed] }) ∧
  (∀ (s : State) (f : Rat), (getSpeedFactor (setSpeedFactor f s)).spd =
    s.spd ++ [if 0 < f then f else 1 / 20]) ∧
  (∀ p : Params, (getSpeedFactor (State.construct p)).spd = [p.speedInit]) ∧
  (∀ (s : State) (d q q' : Rat), 0 < d → q < q' →
    ∃ x x', (adjustDelay d { s with speed := q }).spd = s.spd ++ [x] ∧
      (adjustDelay d { s with speed := q' }).spd = s.spd ++ [x'] ∧ x < x') ∧
  (∀ s : State, (adjustDelay 1 (setSpeedFactor 2 s)).spd = s.spd ++ [2] ∧
    (adjustDelay 1 (setSpeedFactor 0 s)).spd = s.spd ++ [1 / 20])

/-- 10_state.md section 4 (the speed factor, decision D12): no hardware command writes SPEED, and none
depends on it: the same command with another SPEED ends alike but for SPEED. -/
def Obligations.CommandsNeverTouchSpeed : Prop :=
  ∀ (i : Instr) (s t : State), exec i s = .next t →
    t.speed = s.speed ∧
    ∀ q : Rat, exec i { s with speed := q } = .next { t with speed := q }

/-! ### Reset, parameters, and the machine as a whole -/

/-- 10_state.md R34: after construction, and after a reset of the block, every word is 0, the
orientation is ORIENT_INIT, the speed is SPEED_INIT; by default normal and 1. The constants take
their parameter values and keep them. -/
def Obligations.ResetLeavesTheSpecValues : Prop :=
  (∀ p : Params, (State.construct p).params = p ∧
    (State.construct p).buf.length = p.columns ∧
    (∀ c, c < p.columns → wordAt (State.construct p).buf c = 0) ∧
    ((State.construct p).orient = .flipped ↔ p.orientInit = true) ∧
    (State.construct p).speed = p.speedInit) ∧
  (∀ s : State, (resetBlock s).params = s.params ∧
    (resetBlock s).buf = (State.construct s.params).buf ∧
    (resetBlock s).orient = (State.construct s.params).orient ∧
    (resetBlock s).speed = (State.construct s.params).speed) ∧
  (State.construct Params.default).orient = .normal ∧
  (State.construct Params.default).speed = 1 ∧
  (∀ s t : State, step s = .next t → t.params = s.params)

/-- 00_scope.md section 4: the parameters of `State.reset` are the spec's default values. That reset
is the default instance is this model's choice (log 17). -/
def Obligations.ResetInstanceHasTheSpecDefaults : Prop :=
  State.reset.params.addr = 2 ∧ State.reset.params.columns = 84 ∧
  State.reset.params.rowsReq = 8 ∧ State.reset.params.xw = 16 ∧
  State.reset.params.orientInit = false ∧ State.reset.params.speedInit = 1 ∧
  State.reset.params.verbose = false ∧ State.reset.params.legal = true ∧
  State.reset.params.wire = 18 ∧ State.reset.params.rows = 8 ∧ State.reset.params.bpc = 1 ∧
  State.reset.params.dataSize = 84 ∧ State.reset.params.payloadLen = 168 ∧
  State.reset.params.frameLen = 176

/-- 00_scope.md R9, R13 with 10_state.md R25: the row count is the least multiple of 8 that is not
below the requested one; the sizes are exact; the wire address of an instance is in 17..32. -/
def Obligations.DerivedConstantsFollowTheParameters : Prop :=
  ∀ p : Params,
    p.rows % 8 = 0 ∧ p.rowsReq ≤ p.rows ∧ p.rows < p.rowsReq + 8 ∧ p.rows = 8 * p.bpc ∧
    8 * p.dataSize = p.rows * p.columns ∧ p.payloadLen = 2 * p.dataSize ∧
    p.frameLen = 8 + p.payloadLen ∧
    (p.legal = true → p.wire = p.addr + 16 ∧ 17 ≤ p.wire ∧ p.wire ≤ 32)

/-- 10_state.md sections 2, 4 and 9 with 70_reset_and_hazards.md section 1: right after construction
of every legal instance the invariant holds and no SEND is under way; so too at `State.reset`, the
default instance by this model's choice (log 17). -/
def Obligations.InvariantHoldsAtReset : Prop :=
  (∀ p : Params, p.legal = true → (State.construct p).Inv ∧ (State.construct p).sending = none) ∧
  State.reset.Inv ∧ State.reset.sending = none

/-- 10_state.md sections 2 and 4, 44_speed_control.md (a positive SPEED), 10_state.md section 7 (the
byte position): every step of every state keeps the legal parameters, the buffer of exactly
`COLUMNS` words below `2^ROWS`, the positive speed, and a byte position inside the frame. -/
def Obligations.EveryStepKeepsTheInvariant : Prop :=
  ∀ s t : State, s.Inv → step s = .next t → t.Inv

/-- 20_memory.md section 6, in this model's form of the CMD port (log 8): when an idle block's next
packet decodes to a command, the step is that command's execution on the state without the packet. -/
def Obligations.StepRunsTheDecodedCommand : Prop :=
  ∀ (s : State) (p : List Byte) (moves : List CallerMove) (i : Instr),
    Awaits s (.packet p) moves → decode s.params.xb p = .ok i →
    step s = exec i { s with caller := moves }

/-- The placing of an opcode-table word (this model's operation, log 8): with the table's 16-bit
coordinates the very next step executes exactly the command the table word stands for. -/
def Obligations.PlacedTableWordRunsNext : Prop :=
  ∀ (s : State) (nbits w : Nat) (i : Instr), s.params.legal = true → s.params.xw = 16 →
    decodeTableWord nbits w = some i →
    step (s.withFetchWord nbits w) = exec i { s with sending := none }

/-- 60_exceptions.md sections 1 and 8 (no exception, no halt) and 00_scope.md section 4 (no instance
with parameters out of range, decisions D3, D6, D20; log 12): a step of an instance always answers a
next state, and is refused exactly where no instance exists. -/
def Obligations.StepStopsOnlyWhereNoInstanceExists : Prop :=
  ∀ s : State,
    ((1 ≤ s.params.addr ∧ s.params.addr ≤ 16) ∧
      (1 ≤ s.params.columns ∧ s.params.columns ≤ 2 ^ (s.params.xw - 1)) ∧
      (1 ≤ s.params.rowsReq ∧ s.params.rows ≤ 2 ^ (s.params.xw - 1)) ∧
      (8 ≤ s.params.xw ∧ s.params.xw % 8 = 0) ∧ 0 < s.params.speedInit ∧
      s.params.font.glyph 0x41 ≠ none →
      ∃ t, step s = .next t) ∧
    (¬ (1 ≤ s.params.addr ∧ s.params.addr ≤ 16) ∨
      ¬ (1 ≤ s.params.columns ∧ s.params.columns ≤ 2 ^ (s.params.xw - 1)) ∨
      ¬ (1 ≤ s.params.rowsReq ∧ s.params.rows ≤ 2 ^ (s.params.xw - 1)) ∨
      ¬ (8 ≤ s.params.xw ∧ s.params.xw % 8 = 0) ∨ ¬ 0 < s.params.speedInit ∨
      s.params.font.glyph 0x41 = none →
      step s = .refused .noInstance)

/-- 10_state.md section 2 (the buffer is never reallocated) and section 4 (the constants): no step
changes a parameter, and none changes the number of words of a buffer that has its length. -/
def Obligations.InstanceConstantsNeverChange : Prop :=
  ∀ s t : State, step s = .next t →
    t.params = s.params ∧ (s.buf.length = s.params.columns → t.buf.length = s.params.columns)

/-- 30_encoding.md section 6 (decision D7) and 43_send_frame.md section 6 (a stall, decision D11):
every packet, legal or not, gets exactly one response, at once or, for a SEND the transport stalls,
at the step that ends it; until then none. That the packet is taken from the list `caller` (log 8)
and that a stalled SEND is held over further steps in `sending` (log 7) is this model's form. -/
def Obligations.EveryPacketGetsOneResponse : Prop :=
  (∀ (s : State) (p : List Byte) (moves : List CallerMove), Awaits s (.packet p) moves →
    ∃ t, step s = .next t ∧ t.caller = moves ∧
      ((t.sending = none ∧ ∃ w, t.rsp = s.rsp ++ [w]) ∨
       (t.sending ≠ none ∧ t.rsp = s.rsp ∧ decode s.params.xb p = .ok .send))) ∧
  (∀ (s t : State) (pos : Nat), s.sending = some pos → step s = .next t →
    (t.sending = none ∧ ∃ w, t.rsp = s.rsp ++ [w]) ∨ (t.sending ≠ none ∧ t.rsp = s.rsp))

/-- 60_exceptions.md section 1 (which commands cannot fail and which never emit; marked derived by
the spec; `1/0` is decision D8). -/
def Obligations.OnlySendEmitsAndFourCommandsCannotFail : Prop :=
  (∀ (i : Instr) (s t : State), i ≠ .send → exec i s = .next t →
    t.tx = s.tx ∧ t.answers = s.answers ∧ t.sending = s.sending) ∧
  (∀ (i : Instr) (s : State), i = .fillAll ∨ i = .eraseAll ∨ i = .toggleOrientation ∨
      (∃ col row text, i = .writeText col row text) →
    ∃ t, exec i s = .next t ∧ t.rsp = s.rsp ++ [0x8])

/-- 10_state.md sections 1 and 3 (who writes what): a command changes the orientation only if it is
TOGGLE_ORIENTATION and the buffer only if it is SET, INVERT, FILL_ALL, ERASE_ALL or WRITE_TEXT; it
never changes the constants, the speed, the transport's presence, the caller's moves or what the
speed unit returned. -/
def Obligations.CommandsWriteOnlyWhatTheTableNames : Prop :=
  ∀ (i : Instr) (s t : State), exec i s = .next t →
    t.params = s.params ∧ t.speed = s.speed ∧ t.attached = s.attached ∧ t.caller = s.caller ∧
    t.spd = s.spd ∧
    (i ≠ .toggleOrientation → t.orient = s.orient) ∧
    ((∃ col row, i = .get col row) ∨ i = .toggleOrientation ∨ i = .send → t.buf = s.buf)

/-- 60_exceptions.md section 8 (what is observed; decision D26; logs of the ports: log 9): no step
takes back a response, a byte on the wire or a number the speed unit returned. -/
def Obligations.OutputsOnlyGrow : Prop :=
  ∀ s t : State, step s = .next t → s.rsp <+: t.rsp ∧ s.tx <+: t.tx ∧ s.spd <+: t.spd

/-- 60_exceptions.md sections 6 and 7, in this model's form (logs 5, 8, 9, 10): an idle block with
nothing presented holds its state; attaching and detaching the transport changes its presence alone;
a reset restores the state of construction, with no response and nothing on the wire
(70_reset_and_hazards.md section 1); the speed unit's operations act on the state without the move. -/
def Obligations.CallerMovesActOnAnIdleBlock : Prop :=
  (∀ s : State, s.params.legal = true → s.sending = none → s.caller = [] → step s = .next s) ∧
  (∀ (s : State) (present : Bool) (moves : List CallerMove), Awaits s (.attach present) moves →
    step s = .next { s with caller := moves, attached := present }) ∧
  (∀ (s : State) (moves : List CallerMove), Awaits s .reset moves →
    step s = .next { State.construct s.params with
      attached := s.attached, answers := s.answers, caller := moves,
      rsp := s.rsp, tx := s.tx, spd := s.spd }) ∧
  (∀ (s : State) (f : Rat) (moves : List CallerMove), Awaits s (.setSpeed f) moves →
    step s = .next (setSpeedFactor f { s with caller := moves })) ∧
  (∀ (s : State) (moves : List CallerMove), Awaits s .getSpeed moves →
    step s = .next (getSpeedFactor { s with caller := moves })) ∧
  (∀ (s : State) (d : Rat) (moves : List CallerMove), Awaits s (.adjustDelay d) moves →
    step s = .next (adjustDelay d { s with caller := moves }))
end

