-- ==== Sys2Proof/Laws/State.lean ====
section
/-! SUPPORT. Every field after every update of the state: one small lemma each, so that no later
proof unfolds a record update. -/

namespace Sys2Proof.Machine

@[simp] theorem respond_params (ret : Bool) (cause : Cause) (s : State) :
    (respond ret cause s).params = s.params := rfl

@[simp] theorem respond_buf (ret : Bool) (cause : Cause) (s : State) :
    (respond ret cause s).buf = s.buf := rfl

@[simp] theorem respond_orient (ret : Bool) (cause : Cause) (s : State) :
    (respond ret cause s).orient = s.orient := rfl

@[simp] theorem respond_speed (ret : Bool) (cause : Cause) (s : State) :
    (respond ret cause s).speed = s.speed := rfl

@[simp] theorem respond_sending (ret : Bool) (cause : Cause) (s : State) :
    (respond ret cause s).sending = s.sending := rfl

@[simp] theorem respond_attached (ret : Bool) (cause : Cause) (s : State) :
    (respond ret cause s).attached = s.attached := rfl

@[simp] theorem respond_answers (ret : Bool) (cause : Cause) (s : State) :
    (respond ret cause s).answers = s.answers := rfl

@[simp] theorem respond_caller (ret : Bool) (cause : Cause) (s : State) :
    (respond ret cause s).caller = s.caller := rfl

@[simp] theorem respond_rsp (ret : Bool) (cause : Cause) (s : State) :
    (respond ret cause s).rsp = s.rsp ++ [response ret cause] := rfl

@[simp] theorem respond_tx (ret : Bool) (cause : Cause) (s : State) :
    (respond ret cause s).tx = s.tx := rfl

@[simp] theorem respond_spd (ret : Bool) (cause : Cause) (s : State) :
    (respond ret cause s).spd = s.spd := rfl

@[simp] theorem writeWord_params (c : Nat) (v : ColumnWord) (s : State) :
    (writeWord s c v).params = s.params := rfl

@[simp] theorem writeWord_buf (c : Nat) (v : ColumnWord) (s : State) :
    (writeWord s c v).buf = s.buf.set c v := rfl

@[simp] theorem writeWord_orient (c : Nat) (v : ColumnWord) (s : State) :
    (writeWord s c v).orient = s.orient := rfl

@[simp] theorem writeWord_speed (c : Nat) (v : ColumnWord) (s : State) :
    (writeWord s c v).speed = s.speed := rfl

@[simp] theorem writeWord_sending (c : Nat) (v : ColumnWord) (s : State) :
    (writeWord s c v).sending = s.sending := rfl

@[simp] theorem writeWord_attached (c : Nat) (v : ColumnWord) (s : State) :
    (writeWord s c v).attached = s.attached := rfl

@[simp] theorem writeWord_answers (c : Nat) (v : ColumnWord) (s : State) :
    (writeWord s c v).answers = s.answers := rfl

@[simp] theorem writeWord_caller (c : Nat) (v : ColumnWord) (s : State) :
    (writeWord s c v).caller = s.caller := rfl

@[simp] theorem writeWord_rsp (c : Nat) (v : ColumnWord) (s : State) :
    (writeWord s c v).rsp = s.rsp := rfl

@[simp] theorem writeWord_tx (c : Nat) (v : ColumnWord) (s : State) :
    (writeWord s c v).tx = s.tx := rfl

@[simp] theorem writeWord_spd (c : Nat) (v : ColumnWord) (s : State) :
    (writeWord s c v).spd = s.spd := rfl

@[simp] theorem writeAllWords_params (v : ColumnWord) (s : State) :
    (writeAllWords s v).params = s.params := rfl

@[simp] theorem writeAllWords_buf (v : ColumnWord) (s : State) :
    (writeAllWords s v).buf = List.replicate s.params.columns v := rfl

@[simp] theorem writeAllWords_orient (v : ColumnWord) (s : State) :
    (writeAllWords s v).orient = s.orient := rfl

@[simp] theorem writeAllWords_speed (v : ColumnWord) (s : State) :
    (writeAllWords s v).speed = s.speed := rfl

@[simp] theorem writeAllWords_sending (v : ColumnWord) (s : State) :
    (writeAllWords s v).sending = s.sending := rfl

@[simp] theorem writeAllWords_attached (v : ColumnWord) (s : State) :
    (writeAllWords s v).attached = s.attached := rfl

@[simp] theorem writeAllWords_answers (v : ColumnWord) (s : State) :
    (writeAllWords s v).answers = s.answers := rfl

@[simp] theorem writeAllWords_caller (v : ColumnWord) (s : State) :
    (writeAllWords s v).caller = s.caller := rfl

@[simp] theorem writeAllWords_rsp (v : ColumnWord) (s : State) :
    (writeAllWords s v).rsp = s.rsp := rfl

@[simp] theorem writeAllWords_tx (v : ColumnWord) (s : State) :
    (writeAllWords s v).tx = s.tx := rfl

@[simp] theorem writeAllWords_spd (v : ColumnWord) (s : State) :
    (writeAllWords s v).spd = s.spd := rfl

@[simp] theorem resetBlock_params (s : State) :
    (resetBlock s).params = s.params := rfl

@[simp] theorem resetBlock_buf (s : State) :
    (resetBlock s).buf = List.replicate s.params.columns 0 := rfl

@[simp] theorem resetBlock_orient (s : State) :
    (resetBlock s).orient = Orientation.ofInit s.params.orientInit := rfl

@[simp] theorem resetBlock_speed (s : State) :
    (resetBlock s).speed = s.params.speedInit := rfl

@[simp] theorem resetBlock_sending (s : State) :
    (resetBlock s).sending = none := rfl

@[simp] theorem resetBlock_attached (s : State) :
    (resetBlock s).attached = s.attached := rfl

@[simp] theorem resetBlock_answers (s : State) :
    (resetBlock s).answers = s.answers := rfl

@[simp] theorem resetBlock_caller (s : State) :
    (resetBlock s).caller = s.caller := rfl

@[simp] theorem resetBlock_rsp (s : State) :
    (resetBlock s).rsp = s.rsp := rfl

@[simp] theorem resetBlock_tx (s : State) :
    (resetBlock s).tx = s.tx := rfl

@[simp] theorem resetBlock_spd (s : State) :
    (resetBlock s).spd = s.spd := rfl

@[simp] theorem setSpeedFactor_params (f : Rat) (s : State) :
    (setSpeedFactor f s).params = s.params := rfl

@[simp] theorem setSpeedFactor_buf (f : Rat) (s : State) :
    (setSpeedFactor f s).buf = s.buf := rfl

@[simp] theorem setSpeedFactor_orient (f : Rat) (s : State) :
    (setSpeedFactor f s).orient = s.orient := rfl

@[simp] theorem setSpeedFactor_speed (f : Rat) (s : State) :
    (setSpeedFactor f s).speed = if 0 < f then f else speedFloor := rfl

@[simp] theorem setSpeedFactor_sending (f : Rat) (s : State) :
    (setSpeedFactor f s).sending = s.sending := rfl

@[simp] theorem setSpeedFactor_attached (f : Rat) (s : State) :
    (setSpeedFactor f s).attached = s.attached := rfl

@[simp] theorem setSpeedFactor_answers (f : Rat) (s : State) :
    (setSpeedFactor f s).answers = s.answers := rfl

@[simp] theorem setSpeedFactor_caller (f : Rat) (s : State) :
    (setSpeedFactor f s).caller = s.caller := rfl

@[simp] theorem setSpeedFactor_rsp (f : Rat) (s : State) :
    (setSpeedFactor f s).rsp = s.rsp := rfl

@[simp] theorem setSpeedFactor_tx (f : Rat) (s : State) :
    (setSpeedFactor f s).tx = s.tx := rfl

@[simp] theorem setSpeedFactor_spd (f : Rat) (s : State) :
    (setSpeedFactor f s).spd = s.spd := rfl

@[simp] theorem getSpeedFactor_params (s : State) :
    (getSpeedFactor s).params = s.params := rfl

@[simp] theorem getSpeedFactor_buf (s : State) :
    (getSpeedFactor s).buf = s.buf := rfl

@[simp] theorem getSpeedFactor_orient (s : State) :
    (getSpeedFactor s).orient = s.orient := rfl

@[simp] theorem getSpeedFactor_speed (s : State) :
    (getSpeedFactor s).speed = s.speed := rfl

@[simp] theorem getSpeedFactor_sending (s : State) :
    (getSpeedFactor s).sending = s.sending := rfl

@[simp] theorem getSpeedFactor_attached (s : State) :
    (getSpeedFactor s).attached = s.attached := rfl

@[simp] theorem getSpeedFactor_answers (s : State) :
    (getSpeedFactor s).answers = s.answers := rfl

@[simp] theorem getSpeedFactor_caller (s : State) :
    (getSpeedFactor s).caller = s.caller := rfl

@[simp] theorem getSpeedFactor_rsp (s : State) :
    (getSpeedFactor s).rsp = s.rsp := rfl

@[simp] theorem getSpeedFactor_tx (s : State) :
    (getSpeedFactor s).tx = s.tx := rfl

@[simp] theorem getSpeedFactor_spd (s : State) :
    (getSpeedFactor s).spd = s.spd ++ [s.speed] := rfl

@[simp] theorem adjustDelay_params (d : Rat) (s : State) :
    (adjustDelay d s).params = s.params := rfl

@[simp] theorem adjustDelay_buf (d : Rat) (s : State) :
    (adjustDelay d s).buf = s.buf := rfl

@[simp] theorem adjustDelay_orient (d : Rat) (s : State) :
    (adjustDelay d s).orient = s.orient := rfl

@[simp] theorem adjustDelay_speed (d : Rat) (s : State) :
    (adjustDelay d s).speed = s.speed := rfl

@[simp] theorem adjustDelay_sending (d : Rat) (s : State) :
    (adjustDelay d s).sending = s.sending := rfl

@[simp] theorem adjustDelay_attached (d : Rat) (s : State) :
    (adjustDelay d s).attached = s.attached := rfl

@[simp] theorem adjustDelay_answers (d : Rat) (s : State) :
    (adjustDelay d s).answers = s.answers := rfl

@[simp] theorem adjustDelay_caller (d : Rat) (s : State) :
    (adjustDelay d s).caller = s.caller := rfl

@[simp] theorem adjustDelay_rsp (d : Rat) (s : State) :
    (adjustDelay d s).rsp = s.rsp := rfl

@[simp] theorem adjustDelay_tx (d : Rat) (s : State) :
    (adjustDelay d s).tx = s.tx := rfl

@[simp] theorem adjustDelay_spd (d : Rat) (s : State) :
    (adjustDelay d s).spd = s.spd ++ [d * s.speed] := rfl

@[simp] theorem presentPacket_params (bytes : List Byte) (s : State) :
    (presentPacket bytes s).params = s.params := rfl

@[simp] theorem presentPacket_buf (bytes : List Byte) (s : State) :
    (presentPacket bytes s).buf = s.buf := rfl

@[simp] theorem presentPacket_orient (bytes : List Byte) (s : State) :
    (presentPacket bytes s).orient = s.orient := rfl

@[simp] theorem presentPacket_speed (bytes : List Byte) (s : State) :
    (presentPacket bytes s).speed = s.speed := rfl

@[simp] theorem presentPacket_sending (bytes : List Byte) (s : State) :
    (presentPacket bytes s).sending = none := rfl

@[simp] theorem presentPacket_attached (bytes : List Byte) (s : State) :
    (presentPacket bytes s).attached = s.attached := rfl

@[simp] theorem presentPacket_answers (bytes : List Byte) (s : State) :
    (presentPacket bytes s).answers = s.answers := rfl

@[simp] theorem presentPacket_caller (bytes : List Byte) (s : State) :
    (presentPacket bytes s).caller = .packet bytes :: s.caller := rfl

@[simp] theorem presentPacket_rsp (bytes : List Byte) (s : State) :
    (presentPacket bytes s).rsp = s.rsp := rfl

@[simp] theorem presentPacket_tx (bytes : List Byte) (s : State) :
    (presentPacket bytes s).tx = s.tx := rfl

@[simp] theorem presentPacket_spd (bytes : List Byte) (s : State) :
    (presentPacket bytes s).spd = s.spd := rfl

end Sys2Proof.Machine
end

