-- ==== Sys2Proof/Laws/Ops.lean ====
section
/-! SUPPORT. What the named operations do: bits of a column word, words of the buffer, dots, and the
presenting of bytes to the transport. -/

namespace Sys2Proof.Machine

/-! ### Bits of a column word -/

theorem testBit_rowBit (r i : Nat) : (rowBit r).testBit i = decide (r = i) := by
  rw [rowBit, Nat.one_shiftLeft, Nat.testBit_two_pow]

@[simp] theorem testBit_setBit (w r i : Nat) :
    (setBit w r).testBit i = (w.testBit i || decide (r = i)) := by
  rw [setBit, Nat.testBit_or, testBit_rowBit]

@[simp] theorem testBit_clearBit (w r i : Nat) :
    (clearBit w r).testBit i = (w.testBit i && !decide (r = i)) := by
  rw [clearBit, Nat.testBit_xor, Nat.testBit_and, testBit_rowBit]
  cases w.testBit i <;> simp

@[simp] theorem testBit_flipBit (w r i : Nat) :
    (flipBit w r).testBit i = (w.testBit i ^^ decide (r = i)) := by
  rw [flipBit, Nat.testBit_xor, testBit_rowBit]

/-- The lit word "has exactly `ROWS` one-bits" (41_bulk_ops.md R91). -/
@[simp] theorem testBit_litWord (p : Params) (i : Nat) :
    (litWord p).testBit i = decide (i < p.rows) := by
  rw [litWord, Nat.one_shiftLeft, Nat.testBit_two_pow_sub_one]

theorem litWord_lt (p : Params) : litWord p < 2 ^ p.rows := by
  rw [litWord, Nat.one_shiftLeft]
  exact Nat.sub_lt (Nat.two_pow_pos p.rows) Nat.one_pos

theorem rowBit_lt {r n : Nat} (h : r < n) : rowBit r < 2 ^ n := by
  rw [rowBit, Nat.one_shiftLeft]
  exact Nat.pow_lt_pow_right (by omega) h

theorem setBit_lt {w r n : Nat} (hw : w < 2 ^ n) (hr : r < n) : setBit w r < 2 ^ n :=
  Nat.or_lt_two_pow hw (rowBit_lt hr)

theorem clearBit_lt {w r n : Nat} (hw : w < 2 ^ n) (hr : r < n) : clearBit w r < 2 ^ n :=
  Nat.xor_lt_two_pow hw (Nat.and_lt_two_pow w (rowBit_lt hr))

theorem flipBit_lt {w r n : Nat} (hw : w < 2 ^ n) (hr : r < n) : flipBit w r < 2 ^ n :=
  Nat.xor_lt_two_pow hw (rowBit_lt hr)

/-- Complementing a bit twice restores the word (40_dot_ops.md R83). -/
theorem flipBit_flipBit (w r : Nat) : flipBit (flipBit w r) r = w := by
  rw [flipBit, flipBit, Nat.xor_assoc, Nat.xor_self, Nat.xor_zero]

/-! ### Words and dots -/

theorem wordAt_set {buf : List ColumnWord} {c : Nat} (h : c < buf.length) (v c' : Nat) :
    wordAt (buf.set c v) c' = if c' = c then v else wordAt buf c' := by
  simp only [wordAt, List.getD_eq_getElem?_getD, List.getElem?_set]
  by_cases hc : c = c'
  · subst hc; simp [h]
  · simp [hc, Ne.symm hc]

theorem wordAt_replicate (n v c : Nat) :
    wordAt (List.replicate n v) c = if c < n then v else 0 := by
  simp only [wordAt, List.getD_eq_getElem?_getD, List.getElem?_replicate]
  split <;> rfl

theorem wordAt_eq_zero {buf : List ColumnWord} {c : Nat} (h : buf.length ≤ c) :
    wordAt buf c = 0 := by
  simp [wordAt, List.getElem?_eq_none h]

/-- A write of a word changes that word's dots only. -/
theorem dot_writeWord {s : State} {c : Nat} (h : c < s.buf.length) (v c' r' : Nat) :
    (writeWord s c v).dot c' r' = if c' = c then v.testBit r' else s.dot c' r' := by
  simp only [State.dot, writeWord_buf, wordAt_set h]
  split <;> rfl

@[simp] theorem dot_respond (ret : Bool) (cause : Cause) (s : State) (c r : Nat) :
    (respond ret cause s).dot c r = s.dot c r := rfl

theorem dot_writeAllWords (s : State) (v c r : Nat) :
    (writeAllWords s v).dot c r = (decide (c < s.params.columns) && v.testBit r) := by
  simp only [State.dot, writeAllWords_buf, wordAt_replicate]
  split <;> simp [*]

/-- Two buffers of one length with the same dots are the same buffer. -/
theorem buf_ext {b b' : List ColumnWord} (hl : b.length = b'.length)
    (h : ∀ c r, (wordAt b c).testBit r = (wordAt b' c).testBit r) : b = b' := by
  apply List.ext_getElem hl
  intro c hc hc'
  have := Nat.eq_of_testBit_eq (h c)
  simpa [wordAt, hc, hc'] using this

/-! ### Presenting bytes -/

/-- Once for all uses: how presenting bytes can end. All of them went out; or the write after the
first `k` failed; or the transport has not answered the byte after the first `k`
(43_send_frame.md R128, R130, R131). -/
theorem transmit_cases (bytes : List Byte) (answers : List TxAnswer) :
    (∃ rest, answers = List.replicate bytes.length .ok ++ rest ∧
      transmit bytes answers = ⟨bytes, rest, .allTaken⟩) ∨
    (∃ k rest, k < bytes.length ∧ answers = List.replicate k .ok ++ .fail :: rest ∧
      transmit bytes answers = ⟨bytes.take k, rest, .failed⟩) ∨
    (∃ k rest, k < bytes.length ∧ answers = List.replicate k .ok ++ .stall :: rest ∧
      transmit bytes answers = ⟨bytes.take k, rest, .stalled⟩) ∨
    (∃ k, k < bytes.length ∧ answers = List.replicate k .ok ∧
      transmit bytes answers = ⟨bytes.take k, [], .stalled⟩) := by
  induction bytes generalizing answers with
  | nil => exact .inl ⟨answers, rfl, rfl⟩
  | cons b bytes ih =>
    match answers with
    | [] => exact .inr (.inr (.inr ⟨0, by simp, rfl, rfl⟩))
    | .fail :: rest => exact .inr (.inl ⟨0, rest, by simp, rfl, rfl⟩)
    | .stall :: rest => exact .inr (.inr (.inl ⟨0, rest, by simp, rfl, rfl⟩))
    | .ok :: answers =>
      rcases ih answers with ⟨rest, ha, ht⟩ | ⟨k, rest, hk, ha, ht⟩ | ⟨k, rest, hk, ha, ht⟩ |
        ⟨k, hk, ha, ht⟩
      · exact .inl ⟨rest, by simp [ha, List.replicate_succ], by simp [transmit, ht]⟩
      · exact .inr (.inl ⟨k + 1, rest, by simpa using hk, by simp [ha, List.replicate_succ],
          by simp [transmit, ht]⟩)
      · exact .inr (.inr (.inl ⟨k + 1, rest, by simpa using hk, by simp [ha, List.replicate_succ],
          by simp [transmit, ht]⟩))
      · exact .inr (.inr (.inr ⟨k + 1, by simpa using hk, by simp [ha, List.replicate_succ],
          by simp [transmit, ht]⟩))

theorem transmit_allTaken (bytes : List Byte) (rest : List TxAnswer) :
    transmit bytes (List.replicate bytes.length .ok ++ rest) = ⟨bytes, rest, .allTaken⟩ := by
  induction bytes with
  | nil => rfl
  | cons b bytes ih => simp [List.replicate_succ, transmit, ih]

theorem transmit_failed {bytes : List Byte} {k : Nat} (hk : k < bytes.length)
    (rest : List TxAnswer) :
    transmit bytes (List.replicate k .ok ++ .fail :: rest) = ⟨bytes.take k, rest, .failed⟩ := by
  induction bytes generalizing k with
  | nil => simp at hk
  | cons b bytes ih =>
    cases k with
    | zero => rfl
    | succ k => simp [List.replicate_succ, transmit, ih (Nat.lt_of_succ_lt_succ hk)]

theorem transmit_stalled {bytes : List Byte} {k : Nat} (hk : k < bytes.length)
    (rest : List TxAnswer) :
    transmit bytes (List.replicate k .ok ++ .stall :: rest) = ⟨bytes.take k, rest, .stalled⟩ := by
  induction bytes generalizing k with
  | nil => simp at hk
  | cons b bytes ih =>
    cases k with
    | zero => rfl
    | succ k => simp [List.replicate_succ, transmit, ih (Nat.lt_of_succ_lt_succ hk)]

theorem transmit_unanswered {bytes : List Byte} {k : Nat} (hk : k < bytes.length) :
    transmit bytes (List.replicate k .ok) = ⟨bytes.take k, [], .stalled⟩ := by
  induction bytes generalizing k with
  | nil => simp at hk
  | cons b bytes ih =>
    cases k with
    | zero => rfl
    | succ k => simp [List.replicate_succ, transmit, ih (Nat.lt_of_succ_lt_succ hk)]

/-- More bytes are presented, with the answers left over, only after all the first were taken. -/
theorem transmit_append (bytes more : List Byte) (answers : List TxAnswer) :
    transmit (bytes ++ more) answers =
      match (transmit bytes answers).status with
      | .allTaken =>
        ⟨bytes ++ (transmit more (transmit bytes answers).rest).sent,
          (transmit more (transmit bytes answers).rest).rest,
          (transmit more (transmit bytes answers).rest).status⟩
      | .failed => transmit bytes answers
      | .stalled => transmit bytes answers := by
  induction bytes generalizing answers with
  | nil => rfl
  | cons b bytes ih =>
    match answers with
    | [] => rfl
    | .fail :: _ => rfl
    | .stall :: _ => rfl
    | .ok :: answers =>
      simp only [List.cons_append, transmit, ih]
      cases transmit bytes answers with
      | mk sent rest status => cases status <;> rfl

end Sys2Proof.Machine
end

