-- ==== Sys2Proof/Laws/Operands.lean ====
section
/-! SUPPORT. The coordinate mapper and the dot accesses through it (20_memory.md R42 to R45). -/

namespace Sys2Proof.Machine

/-- The mapper's result in each orientation, on a point in range. -/
theorem mapDot_eq_some_iff (s : State) (col row : Int) (c r : Nat) :
    mapDot s col row = some (c, r) ↔
      c < s.params.columns ∧ r < s.params.rows ∧
      (match s.orient with
        | .normal => col = c ∧ row = r
        | .flipped => col = s.params.columns - 1 - c ∧ row = s.params.rows - 1 - r) := by
  unfold mapDot boundsCheck orientPoint
  cases s.orient
  all_goals
    simp only [Option.ite_none_right_eq_some, Option.some.injEq, Prod.mk.injEq]
    omega

/-- The verdict does not depend on the orientation (20_memory.md R44 (a)). -/
theorem mapDot_eq_none_iff (s : State) (col row : Int) :
    mapDot s col row = none ↔ ¬ inRange s.params col row := by
  unfold mapDot boundsCheck orientPoint inRange
  cases s.orient with
  | normal => simp only [ite_eq_right_iff, reduceCtorEq, imp_false]
  | flipped => simp only [ite_eq_right_iff, reduceCtorEq, imp_false]; omega

theorem mapDot_bounds {s : State} {col row : Int} {c r : Nat} (h : mapDot s col row = some (c, r)) :
    c < s.params.columns ∧ r < s.params.rows := by
  have := (mapDot_eq_some_iff s col row c r).mp h
  exact ⟨this.1, this.2.1⟩

theorem mapDot_of_inRange {s : State} {col row : Int} (h : inRange s.params col row) :
    ∃ c r, mapDot s col row = some (c, r) := by
  cases hm : mapDot s col row with
  | none => exact absurd h ((mapDot_eq_none_iff s col row).mp hm)
  | some cr => exact ⟨cr.1, cr.2, rfl⟩

/-- The mapper is injective where it is defined (20_memory.md R44 (b)). -/
theorem mapDot_inj {s : State} {col row col' row' : Int} {cr : Nat × Nat}
    (h : mapDot s col row = some cr) (h' : mapDot s col' row' = some cr) :
    col = col' ∧ row = row' := by
  obtain ⟨c, r⟩ := cr
  have h1 := (mapDot_eq_some_iff s col row c r).mp h
  have h2 := (mapDot_eq_some_iff s col' row' c r).mp h'
  revert h1 h2
  cases s.orient <;> simp only <;> omega

/-- The mapper reads the parameters and the orientation and nothing else (20_memory.md R43). -/
theorem mapDot_congr {s t : State} (hp : t.params = s.params) (ho : t.orient = s.orient)
    (col row : Int) : mapDot t col row = mapDot s col row := by
  simp only [mapDot, hp, ho]

/-- What changing one dot can do: out of range nothing, else one bit of one word. -/
theorem modifyDot_cases (s : State) (col row : Int) (f : ColumnWord → Nat → ColumnWord) :
    (mapDot s col row = none ∧ modifyDot s col row f = none) ∨
    ∃ c r, mapDot s col row = some (c, r) ∧
      modifyDot s col row f = some (writeWord s c (f (wordAt s.buf c) r)) := by
  unfold modifyDot
  cases h : mapDot s col row with
  | none => exact .inl ⟨rfl, rfl⟩
  | some cr => exact .inr ⟨cr.1, cr.2, rfl, rfl⟩

/-- SET's write, dot by dot. -/
theorem dot_setWrite {s : State} {c : Nat} (h : c < s.buf.length) (r : Nat) (state : Bool)
    (c' r' : Nat) :
    (writeWord s c ((if state then setBit else clearBit) (wordAt s.buf c) r)).dot c' r' =
      if c' = c ∧ r' = r then state else s.dot c' r' := by
  rw [dot_writeWord h]
  by_cases hc : c' = c
  · subst hc
    by_cases hr : r' = r
    · subst hr; cases state <;> simp
    · cases state <;> simp [hr, Ne.symm hr, State.dot]
  · simp [hc]

/-- INVERT's write, dot by dot. -/
theorem dot_flipWrite {s : State} {c : Nat} (h : c < s.buf.length) (r c' r' : Nat) :
    (writeWord s c (flipBit (wordAt s.buf c) r)).dot c' r' =
      if c' = c ∧ r' = r then !s.dot c' r' else s.dot c' r' := by
  rw [dot_writeWord h]
  by_cases hc : c' = c
  · subst hc
    by_cases hr : r' = r
    · subst hr; simp [State.dot]
    · simp [hr, Ne.symm hr, State.dot]
  · simp [hc]

end Sys2Proof.Machine
end

