-- ==== Sys2Proof/Laws/Text.lean ====
section
/-! SUPPORT. What drawing does: it changes the buffer only, keeps its length, and lights exactly the
dots of the glyphs' set bits that the mapper keeps (42_write_text.md R104, R106). -/

namespace Sys2Proof.Machine

/-- `t` is `s` with the dots of `P` lit, nothing else changed. -/
def Lights (s t : State) (P : Nat → Nat → Prop) : Prop :=
  t = { s with buf := t.buf } ∧ t.buf.length = s.buf.length ∧
    ∀ c r, t.dot c r = true ↔ s.dot c r = true ∨ P c r

theorem Lights.params {s t : State} {P : Nat → Nat → Prop} (h : Lights s t P) :
    t.params = s.params := by rw [h.1]

theorem Lights.orient {s t : State} {P : Nat → Nat → Prop} (h : Lights s t P) :
    t.orient = s.orient := by rw [h.1]

theorem Lights.refl (s : State) {P : Nat → Nat → Prop} (h : ∀ c r, ¬ P c r) : Lights s s P :=
  ⟨rfl, rfl, fun c r => by simp [h c r]⟩

theorem Lights.trans {s t u : State} {P Q : Nat → Nat → Prop} (h : Lights s t P)
    (h' : Lights t u Q) : Lights s u (fun c r => P c r ∨ Q c r) := by
  obtain ⟨h1, h2, h3⟩ := h
  obtain ⟨k1, k2, k3⟩ := h'
  refine ⟨?_, k2.trans h2, fun c r => ?_⟩
  · rw [k1, h1]
  · rw [k3, h3, or_assoc]

theorem Lights.mono {s t : State} {P Q : Nat → Nat → Prop} (h : Lights s t P)
    (hPQ : ∀ c r, P c r ↔ Q c r) : Lights s t Q :=
  ⟨h.1, h.2.1, fun c r => by rw [h.2.2, hPQ]⟩

/-- One plotted dot. -/
theorem plot_lights {s : State} (hl : s.buf.length = s.params.columns) (x y : Int) :
    Lights s (plot s x y) (fun c r => mapDot s x y = some (c, r)) := by
  unfold plot setDot
  rcases modifyDot_cases s x y setBit with ⟨hm, h⟩ | ⟨c, r, hm, h⟩
  · rw [if_pos rfl, h, Option.getD_none]
    exact Lights.refl s (fun c r => by simp [hm])
  · rw [if_pos rfl, h, Option.getD_some]
    refine ⟨rfl, by simp, fun c' r' => ?_⟩
    have := dot_setWrite (s := s) (c := c) (by rw [hl]; exact (mapDot_bounds hm).1) r true c' r'
    rw [if_pos rfl] at this
    simp only [this, hm, Option.some.injEq, Prod.mk.injEq]
    by_cases he : c' = c ∧ r' = r
    · rw [if_pos he, he.1, he.2]; simp
    · rw [if_neg he]
      have hn : ¬ (c = c' ∧ r = r') := fun h => he ⟨h.1.symm, h.2.symm⟩
      simp [hn]

/-- A fold of lighting operations lights the dots of them all. -/
theorem foldl_lights {α : Type} {s : State} {f : State → α → State} {P : α → Nat → Nat → Prop}
    (hf : ∀ a t, t.params = s.params → t.orient = s.orient → t.buf.length = s.buf.length →
      Lights t (f t a) (P a)) (l : List α) :
    Lights s (l.foldl f s) (fun c r => ∃ a ∈ l, P a c r) := by
  suffices h : ∀ t, t.params = s.params → t.orient = s.orient → t.buf.length = s.buf.length →
      Lights t (l.foldl f t) (fun c r => ∃ a ∈ l, P a c r) from h s rfl rfl rfl
  induction l with
  | nil => exact fun t _ _ _ => Lights.refl t (by simp)
  | cons a l ih =>
    intro t hp ho hb
    have h1 := hf a t hp ho hb
    have h2 := ih (f t a) (h1.params.trans hp) (h1.orient.trans ho) (h1.2.1.trans hb)
    exact (h1.trans h2).mono (fun c r => by simp)

theorem drawColumn_lights {s : State} (hl : s.buf.length = s.params.columns) (x row : Int)
    (bits : BitVec 7) :
    Lights s (drawColumn x row bits s)
      (fun c r => ∃ k : Nat, k < 7 ∧ bits.getLsbD k = true ∧ mapDot s x (row + k) = some (c, r)) := by
  refine (foldl_lights (P := fun (k : Nat) c r =>
    bits.getLsbD k = true ∧ mapDot s x (row + k) = some (c, r)) ?_ _).mono (by simp)
  intro k t hp ho hb
  by_cases hk : bits.getLsbD k = true
  · rw [if_pos hk]
    refine (plot_lights (by rw [hb, hp, hl]) x (row + k)).mono (fun c r => ?_)
    rw [mapDot_congr hp ho]
    simp [hk]
  · rw [if_neg hk]
    exact Lights.refl t (by simp [hk])

/-- A glyph: the right-edge test drops only dots the mapper drops anyway (42_write_text.md R106). -/
theorem drawGlyph_lights {s : State} (hl : s.buf.length = s.params.columns) (cur row : Int)
    (g : Glyph) :
    Lights s (drawGlyph cur row g s)
      (fun c r => ∃ i k : Nat, i < 5 ∧ k < 7 ∧ (g.column i).getLsbD k = true ∧
        mapDot s (cur + i) (row + k) = some (c, r)) := by
  refine (foldl_lights (P := fun (i : Nat) c r => ∃ k : Nat, k < 7 ∧
    (g.column i).getLsbD k = true ∧ mapDot s (cur + i) (row + k) = some (c, r)) ?_ _).mono ?_
  · intro i t hp ho hb
    by_cases hi : cur + i ≤ (t.params.columns : Int) - 1
    · rw [if_pos hi]
      refine (drawColumn_lights (by rw [hb, hp, hl]) _ row _).mono (fun c r => ?_)
      simp only [mapDot_congr hp ho]
    · rw [if_neg hi]
      refine Lights.refl t ?_
      rintro c r ⟨k, -, -, hm⟩
      have hn : ¬ mapDot s (cur + i) (row + k) = none := by simp [hm]
      rw [mapDot_eq_none_iff, not_not] at hn
      rw [hp] at hi
      unfold inRange at hn
      omega
  · intro c r
    constructor
    · rintro ⟨i, hi, k, h⟩
      exact ⟨i, k, by simpa using hi, h⟩
    · rintro ⟨i, k, hi, h⟩
      exact ⟨i, by simpa using hi, k, h⟩

theorem charLights_congr {s t : State} (hp : t.params = s.params) (ho : t.orient = s.orient)
    (cur row : Int) (ch : Byte) (c r : Nat) :
    charLights t cur row ch c r ↔ charLights s cur row ch c r := by
  unfold charLights
  simp only [hp, mapDot_congr hp ho]

theorem drawChar_lights {s : State} (hl : s.buf.length = s.params.columns) (cur row : Int)
    (ch : Byte) : Lights s (drawChar cur row ch s) (charLights s cur row ch) := by
  unfold drawChar charLights
  cases h : s.params.font.glyph ch with
  | none => exact Lights.refl s (by simp)
  | some g => exact (drawGlyph_lights hl cur row g).mono (by simp)

theorem textLights_cons (s : State) (col row : Int) (ch : Byte) (text : List Byte) (c r : Nat) :
    textLights s col row (ch :: text) c r ↔
      charLights s col row ch c r ∨ textLights s (col + 6) row text c r := by
  unfold textLights
  constructor
  · rintro ⟨n, ch', hn, h⟩
    cases n with
    | zero =>
      simp only [List.getElem?_cons_zero, Option.some.injEq] at hn
      subst hn
      left; simpa using h
    | succ n =>
      refine .inr ⟨n, ch', by simpa using hn, ?_⟩
      have he : col + 6 + 6 * (n : Int) = col + 6 * ((n + 1 : Nat) : Int) := by push_cast; ring
      rwa [he]
  · rintro (h | ⟨n, ch', hn, h⟩)
    · exact ⟨0, ch, by simp, by simpa using h⟩
    · refine ⟨n + 1, ch', by simpa using hn, ?_⟩
      have he : col + 6 + 6 * (n : Int) = col + 6 * ((n + 1 : Nat) : Int) := by push_cast; ring
      rwa [← he]

/-- A whole text lights the dots of its characters, six columns apart (42_write_text.md R104). -/
theorem drawText_lights {s : State} (hl : s.buf.length = s.params.columns) (row cur : Int)
    (text : List Byte) : Lights s (drawText row cur text s) (textLights s cur row text) := by
  induction text generalizing s cur with
  | nil => exact Lights.refl s (by simp [textLights])
  | cons ch text ih =>
    have h1 := drawChar_lights hl cur row ch
    have h2 := ih (s := drawChar cur row ch s) (by rw [h1.2.1, h1.params, hl]) (cur + 6)
    refine (h1.trans h2).mono (fun c r => ?_)
    rw [textLights_cons]
    unfold textLights
    simp only [charLights_congr h1.params h1.orient]

end Sys2Proof.Machine
end

