-- ==== Sys2Proof/Laws/Buffer.lean ====
section
/-! SUPPORT. Every operation on the buffer keeps its canonical form (10_state.md R21, R23). -/

namespace Sys2Proof.Machine

theorem Buffer.wf_iff (p : Params) (buf : List ColumnWord) :
    Buffer.wf p buf = true ↔ buf.length = p.columns ∧ ∀ w ∈ buf, w < 2 ^ p.rows := by
  simp [Buffer.wf]

/-- The form in terms of dots: the right length, and no dot at or above row `ROWS`. -/
theorem Buffer.wf_iff_dots (p : Params) (buf : List ColumnWord) :
    Buffer.wf p buf = true ↔
      buf.length = p.columns ∧ ∀ c r, (wordAt buf c).testBit r = true → r < p.rows := by
  rw [Buffer.wf_iff]
  refine and_congr_right fun _ => ⟨fun h c r hb => ?_, fun h w hw => ?_⟩
  · by_contra hr
    have hw : wordAt buf c < 2 ^ p.rows := by
      by_cases hc : c < buf.length
      · have : wordAt buf c = buf[c] := by simp [wordAt, hc]
        rw [this]
        exact h _ (List.getElem_mem hc)
      · rw [wordAt_eq_zero (by omega)]
        exact Nat.two_pow_pos _
    have := Nat.testBit_lt_two_pow (lt_of_lt_of_le hw (Nat.pow_le_pow_right (by omega) (not_lt.mp hr)))
    simp [this] at hb
  · obtain ⟨c, hc, rfl⟩ := List.getElem_of_mem hw
    apply Nat.lt_pow_two_of_testBit
    intro r hr
    by_contra hb
    have := h c r (by simpa [wordAt, hc] using hb)
    omega

theorem Buffer.wf_length {p : Params} {buf : List ColumnWord} (h : Buffer.wf p buf = true) :
    buf.length = p.columns := ((Buffer.wf_iff p buf).mp h).1

/-- Every word the same, below `2^ROWS`: FILL_ALL, ERASE_ALL and reset. -/
theorem Buffer.wf_replicate {p : Params} {v : ColumnWord} (h : v < 2 ^ p.rows) :
    Buffer.wf p (List.replicate p.columns v) = true := by
  rw [Buffer.wf_iff]
  exact ⟨by simp, fun w hw => by rw [List.eq_of_mem_replicate hw]; exact h⟩

theorem Buffer.wf_set {p : Params} {buf : List ColumnWord} (h : Buffer.wf p buf = true) (c : Nat)
    {v : ColumnWord} (hv : v < 2 ^ p.rows) : Buffer.wf p (buf.set c v) = true := by
  rw [Buffer.wf_iff] at h ⊢
  refine ⟨by simp [h.1], fun w hw => ?_⟩
  rcases List.mem_or_eq_of_mem_set hw with hw | rfl
  · exact h.2 w hw
  · exact hv

/-- Reading a word of a buffer in form gives a word in form. -/
theorem Buffer.wordAt_lt {p : Params} {buf : List ColumnWord} (h : Buffer.wf p buf = true) (c : Nat) :
    wordAt buf c < 2 ^ p.rows := by
  by_cases hc : c < buf.length
  · have : wordAt buf c = buf[c] := by simp [wordAt, hc]
    rw [this]
    exact ((Buffer.wf_iff p buf).mp h).2 _ (List.getElem_mem hc)
  · rw [wordAt_eq_zero (by omega)]
    exact Nat.two_pow_pos _

/-- Changing one dot by an operation that stays below `2^ROWS` keeps the form. -/
theorem modifyDot_wf {s t : State} {col row : Int} {f : ColumnWord → Nat → ColumnWord}
    (hf : ∀ w r n, w < 2 ^ n → r < n → f w r < 2 ^ n) (h : Buffer.wf s.params s.buf = true)
    (ht : modifyDot s col row f = some t) : Buffer.wf t.params t.buf = true := by
  rcases modifyDot_cases s col row f with ⟨-, hn⟩ | ⟨c, r, hm, hs⟩
  · rw [hn] at ht; cases ht
  · rw [hs] at ht
    obtain rfl := Option.some.inj ht
    exact Buffer.wf_set h c (hf _ _ _ (Buffer.wordAt_lt h c) (mapDot_bounds hm).2)

/-- Lighting dots below row `ROWS` keeps the form. -/
theorem Lights.wf {s t : State} {P : Nat → Nat → Prop} (h : Lights s t P)
    (hP : ∀ c r, P c r → r < s.params.rows) (hs : Buffer.wf s.params s.buf = true) :
    Buffer.wf t.params t.buf = true := by
  rw [h.params]
  rw [Buffer.wf_iff_dots] at hs ⊢
  refine ⟨h.2.1.trans hs.1, fun c r hb => ?_⟩
  rcases (h.2.2 c r).mp hb with hb | hb
  · exact hs.2 c r hb
  · exact hP c r hb

theorem textLights_bounds {s : State} {col row : Int} {text : List Byte} {c r : Nat}
    (h : textLights s col row text c r) : c < s.params.columns ∧ r < s.params.rows := by
  obtain ⟨n, ch, -, g, -, i, k, -, -, -, hm⟩ := h
  exact mapDot_bounds hm

/-- WRITE_TEXT leaves a buffer in form whatever it held before (42_write_text.md R105). -/
theorem writeText_wf (s : State) (col row : Int) (text : List Byte) :
    Buffer.wf (drawText row col text (writeAllWords s 0)).params
      (drawText row col text (writeAllWords s 0)).buf = true :=
  (drawText_lights (by simp) row col text).wf (fun _ _ h => (textLights_bounds h).2)
    (Buffer.wf_replicate (Nat.two_pow_pos _))

end Sys2Proof.Machine
end

