-- ==== Sys2Proof/Laws/Decode.lean ====
section
/-! SUPPORT. What the decoder's and encoder's helpers do: byte order, sign extension, the coordinate
fields of a packet. -/

namespace Sys2Proof

@[simp] theorem leBytes_length (n v : Nat) : (leBytes n v).length = n := by
  induction n generalizing v with
  | zero => rfl
  | succ n ih => simp [leBytes, ih]

/-- Reading back the low bytes of a number gives it modulo their range. -/
theorem leNat_leBytes (n v : Nat) : leNat (leBytes n v) = v % 256 ^ n := by
  induction n generalizing v with
  | zero => simp [leBytes, leNat, Nat.mod_one]
  | succ n ih =>
    have h := Nat.mod_mul (a := 256) (b := 256 ^ n) (x := v)
    have hb : (BitVec.ofNat 8 v).toNat = v % 256 := BitVec.toNat_ofNat v 8
    simp only [leBytes, leNat, ih, hb, Nat.pow_succ', h]

theorem leNat_lt (bs : List Byte) : leNat bs < 256 ^ bs.length := by
  induction bs with
  | nil => simp [leNat]
  | cons b bs ih =>
    have hb : b.toNat < 256 := b.isLt
    simp only [leNat, List.length_cons, pow_succ']
    omega

/-- The bytes of the number a byte sequence reads as are that sequence. -/
theorem leBytes_leNat (bs : List Byte) : leBytes bs.length (leNat bs) = bs := by
  induction bs with
  | nil => rfl
  | cons b bs ih =>
    have hb : b.toNat < 256 := b.isLt
    have hd : (b.toNat + 256 * leNat bs) / 256 = leNat bs := by omega
    have hm : BitVec.ofNat 8 (b.toNat + 256 * leNat bs) = b := by
      apply BitVec.eq_of_toNat_eq
      simp only [BitVec.toNat_ofNat]
      omega
    simp only [List.length_cons, leBytes, leNat, hd, hm, ih]

/-- Sign extension of a value of `n` bits stays within the signed range of `n` bits. -/
theorem coordFits_sext (n v : Nat) (hn : 1 ≤ n) (hv : v < 2 ^ n) : coordFits n (sext n v) = true := by
  obtain ⟨m, rfl⟩ : ∃ m, n = m + 1 := ⟨n - 1, by omega⟩
  have hp : (2 : Int) ^ (m + 1) = 2 * 2 ^ m := by rw [pow_succ']
  have hq : (2 : Nat) ^ (m + 1) = 2 * 2 ^ m := by rw [pow_succ']
  have hc : ((2 ^ m : Nat) : Int) = 2 ^ m := by push_cast; rfl
  simp only [coordFits, sext, Nat.add_sub_cancel, Bool.and_eq_true, decide_eq_true_eq]
  split <;> constructor <;> omega

/-- Sign extension inverts taking the `n`-bit two's complement of a value in range. -/
theorem sext_emod (n : Nat) (x : Int) (hn : 1 ≤ n) (hx : coordFits n x = true) :
    sext n (x % 2 ^ n).toNat = x := by
  obtain ⟨m, rfl⟩ : ∃ m, n = m + 1 := ⟨n - 1, by omega⟩
  have hp : (2 : Int) ^ (m + 1) = 2 * 2 ^ m := by rw [pow_succ']
  have hc : ((2 ^ m : Nat) : Int) = 2 ^ m := by push_cast; rfl
  have hpos : (0 : Int) < 2 ^ m := by positivity
  simp only [coordFits, Nat.add_sub_cancel, Bool.and_eq_true, decide_eq_true_eq] at hx
  obtain ⟨h1, h2⟩ := hx
  simp only [sext, Nat.add_sub_cancel]
  by_cases h : 0 ≤ x
  · have he : x % 2 ^ (m + 1) = x := Int.emod_eq_of_lt h (by omega)
    rw [he, if_pos (by omega)]
    omega
  · have he : x % 2 ^ (m + 1) = x + 2 ^ (m + 1) := by
      rw [← Int.add_emod_right]
      exact Int.emod_eq_of_lt (by omega) (by omega)
    rw [he, if_neg (by omega)]
    omega

/-- The two's complement of a sign-extended value is the value. -/
theorem emod_sext (n v : Nat) (hv : v < 2 ^ n) : (sext n v % 2 ^ n).toNat = v := by
  have hc : ((2 ^ n : Nat) : Int) = 2 ^ n := by push_cast; rfl
  have he : ((v : Int)) % 2 ^ n = v := Int.emod_eq_of_lt (by omega) (by omega)
  unfold sext
  split
  · rw [he]; omega
  · rw [Int.sub_emod_right, he]; omega

theorem pow_256 (n : Nat) : 256 ^ n = 2 ^ (8 * n) := by
  rw [pow_mul]; norm_num

@[simp] theorem coordBytes_length (xb : Nat) (x : Int) : (coordBytes xb x).length = xb := by
  simp [coordBytes]

/-- A coordinate operand is read back from the front of an operand field. -/
theorem coordOf_coordBytes (xb : Nat) (x : Int) (rest : List Byte) (hxb : 1 ≤ xb)
    (hx : coordFits (8 * xb) x = true) : coordOf xb (coordBytes xb x ++ rest) = x := by
  have hc : ((2 ^ (8 * xb) : Nat) : Int) = 2 ^ (8 * xb) := by push_cast; rfl
  have hpos : (0 : Int) < 2 ^ (8 * xb) := by positivity
  have hlt : (x % 2 ^ (8 * xb)).toNat < 2 ^ (8 * xb) := by
    have := Int.emod_lt_of_pos x hpos
    have := Int.emod_nonneg x hpos.ne'
    omega
  have ht : (coordBytes xb x ++ rest).take xb = coordBytes xb x :=
    List.take_left' (coordBytes_length xb x)
  simp only [coordOf, ht]
  rw [coordBytes, leNat_leBytes, pow_256, Nat.mod_eq_of_lt hlt]
  exact sext_emod _ _ (by omega) hx

/-- The first `xb` operand bytes are the bytes of the coordinate they read as. -/
theorem coordBytes_coordOf (xb : Nat) (bs : List Byte) (h : xb ≤ bs.length) :
    coordBytes xb (coordOf xb bs) = bs.take xb := by
  have hl : (bs.take xb).length = xb := by simp [h]
  have hlt : leNat (bs.take xb) < 2 ^ (8 * xb) := by
    have := leNat_lt (bs.take xb)
    rwa [hl, pow_256] at this
  rw [coordBytes, coordOf, emod_sext _ _ hlt]
  have h := leBytes_leNat (bs.take xb)
  rwa [hl] at h

/-- A coordinate read from a packet fits its width. -/
theorem coordFits_coordOf (xb : Nat) (bs : List Byte) (hxb : 1 ≤ xb) :
    coordFits (8 * xb) (coordOf xb bs) = true := by
  apply coordFits_sext _ _ (by omega)
  have h := leNat_lt (bs.take xb)
  have hl : (bs.take xb).length ≤ xb := by simp
  calc leNat (bs.take xb) < 256 ^ (bs.take xb).length := h
    _ ≤ 256 ^ xb := Nat.pow_le_pow_right (by omega) hl
    _ = 2 ^ (8 * xb) := pow_256 xb

@[simp] theorem pointBytes_length (xb : Nat) (col row : Int) :
    (pointBytes xb col row).length = 2 * xb := by
  simp [pointBytes]; omega

/-- Both coordinates of a point are read back from an operand field. -/
theorem coords_pointBytes (xb : Nat) (col row : Int) (rest : List Byte) (hxb : 1 ≤ xb)
    (h : pointFits (8 * xb) col row = true) :
    coordOf xb (pointBytes xb col row ++ rest) = col ∧
      coordOf xb ((pointBytes xb col row ++ rest).drop xb) = row ∧
      (pointBytes xb col row ++ rest).drop (2 * xb) = rest := by
  obtain ⟨hc, hr⟩ : coordFits (8 * xb) col = true ∧ coordFits (8 * xb) row = true := by
    simpa [pointFits] using h
  refine ⟨?_, ?_, List.drop_left' (pointBytes_length xb col row)⟩
  · rw [pointBytes, List.append_assoc]
    exact coordOf_coordBytes xb col _ hxb hc
  · rw [pointBytes, List.append_assoc, List.drop_left' (coordBytes_length xb col)]
    exact coordOf_coordBytes xb row _ hxb hr

/-- The point an operand field holds, written out again, is its first `2 * xb` bytes. -/
theorem pointBytes_coords (xb : Nat) (bs : List Byte) (h : 2 * xb ≤ bs.length) :
    pointBytes xb (coordOf xb bs) (coordOf xb (bs.drop xb)) = bs.take (2 * xb) := by
  rw [pointBytes, coordBytes_coordOf xb bs (by omega),
    coordBytes_coordOf xb (bs.drop xb) (by simp; omega), two_mul, List.take_add]

/-- A state byte is the byte of the value it reads as. -/
theorem stateOf_eq_some {b : Byte} {state : Bool} (h : stateOf b = some state) :
    b = stateByte state := by
  unfold stateOf at h
  split at h
  · rename_i hb; cases h; exact hb
  · split at h
    · rename_i hb; cases h; exact hb
    · cases h

@[simp] theorem stateOf_stateByte (state : Bool) : stateOf (stateByte state) = some state := by
  cases state <;> rfl

/-- A byte is the literal it equals as a number. -/
theorem byte_eq_of_toNat {b : Byte} (n : Byte) (h : b.toNat = n.toNat) : b = n :=
  BitVec.eq_of_toNat_eq h

/-- Once for all uses: what a packet that decodes to a command looks like, opcode by opcode
(30_encoding.md R61 to R63). -/
theorem decode_ok_cases {xb : Nat} {p : List Byte} {i : Instr} (h : decode xb p = .ok i) :
    ∃ opcode rest, p = opcode :: rest ∧
      ((opcode = 0x01 ∧ rest.length = 2 * xb + 1 ∧ ∃ state, rest.drop (2 * xb) = [stateByte state] ∧
          i = .set (coordOf xb rest) (coordOf xb (rest.drop xb)) state) ∨
       (opcode = 0x02 ∧ rest.length = 2 * xb ∧
          i = .get (coordOf xb rest) (coordOf xb (rest.drop xb))) ∨
       (opcode = 0x03 ∧ rest.length = 2 * xb ∧
          i = .invert (coordOf xb rest) (coordOf xb (rest.drop xb))) ∨
       (opcode = 0x04 ∧ rest = [] ∧ i = .fillAll) ∨
       (opcode = 0x05 ∧ rest = [] ∧ i = .eraseAll) ∨
       (opcode = 0x06 ∧ rest = [] ∧ i = .toggleOrientation) ∨
       (opcode = 0x07 ∧ 2 * xb ≤ rest.length ∧
          i = .writeText (coordOf xb rest) (coordOf xb (rest.drop xb)) (rest.drop (2 * xb))) ∨
       (opcode = 0x08 ∧ rest = [] ∧ i = .send)) := by
  have plain : ∀ {j : Instr} {rest : List Byte}, decodePlain j rest = .ok i → rest = [] ∧ i = j := by
    intro j rest h
    unfold decodePlain at h
    split at h
    · exact ⟨List.length_eq_zero_iff.mp ‹_›, by cases h; rfl⟩
    · cases h
  have point : ∀ {make : Int → Int → Instr} {rest : List Byte}, decodePoint xb make rest = .ok i →
      rest.length = 2 * xb ∧ i = make (coordOf xb rest) (coordOf xb (rest.drop xb)) := by
    intro make rest h
    unfold decodePoint at h
    split at h
    · exact ⟨‹_›, by cases h; rfl⟩
    · cases h
  cases p with
  | nil => cases h
  | cons opcode rest =>
    refine ⟨opcode, rest, rfl, ?_⟩
    simp only [decode] at h
    split at h
    · rename_i ho
      refine .inl ⟨byte_eq_of_toNat 0x01 ho, ?_⟩
      unfold decodePointState at h
      split at h
      · rename_i hl
        refine ⟨hl, ?_⟩
        obtain ⟨b, hb⟩ : ∃ b, rest.drop (2 * xb) = [b] :=
          List.length_eq_one_iff.mp (by simp [hl])
        simp only [hb, List.headD_cons] at h
        split at h
        · rename_i state hst
          exact ⟨state, by rw [hb, stateOf_eq_some hst], by cases h; rfl⟩
        · cases h
      · cases h
    · exact .inr (.inl ⟨byte_eq_of_toNat 0x02 ‹_›, point h⟩)
    · exact .inr (.inr (.inl ⟨byte_eq_of_toNat 0x03 ‹_›, point h⟩))
    · exact .inr (.inr (.inr (.inl ⟨byte_eq_of_toNat 0x04 ‹_›, plain h⟩)))
    · exact .inr (.inr (.inr (.inr (.inl ⟨byte_eq_of_toNat 0x05 ‹_›, plain h⟩))))
    · exact .inr (.inr (.inr (.inr (.inr (.inl ⟨byte_eq_of_toNat 0x06 ‹_›, plain h⟩)))))
    · rename_i ho
      refine .inr (.inr (.inr (.inr (.inr (.inr (.inl ⟨byte_eq_of_toNat 0x07 ho, ?_⟩))))))
      unfold decodeText at h
      split at h
      · exact ⟨‹_›, by cases h; rfl⟩
      · cases h
    · exact .inr (.inr (.inr (.inr (.inr (.inr (.inr ⟨byte_eq_of_toNat 0x08 ‹_›, plain h⟩))))))
    · cases h

end Sys2Proof
end

