-- ==== Sys2Proof/Laws/Frame.lean ====
section
/-! SUPPORT. The hex encoder, the lengths of a frame's parts, and what presenting a frame can do
(43_send_frame.md). -/

namespace Sys2Proof.Machine

@[simp] theorem hex2_length (b : Nat) : (hex2 b).length = 2 := rfl

/-- Every hex digit is one of the 16 bytes 0x30..0x39, 0x41..0x46 (43_send_frame.md R116, R117). -/
theorem hexDigit_range {n : Nat} (h : n < 16) :
    (0x30 ≤ (hexDigit n).toNat ∧ (hexDigit n).toNat ≤ 0x39) ∨
      (0x41 ≤ (hexDigit n).toNat ∧ (hexDigit n).toNat ≤ 0x46) := by
  interval_cases n <;> decide

theorem mem_hex2_range {b : Nat} (h : b < 256) {x : Byte} (hx : x ∈ hex2 b) :
    (0x30 ≤ x.toNat ∧ x.toNat ≤ 0x39) ∨ (0x41 ≤ x.toNat ∧ x.toNat ≤ 0x46) := by
  simp only [hex2, List.mem_cons, List.not_mem_nil, or_false] at hx
  rcases hx with rfl | rfl
  · exact hexDigit_range (by omega)
  · exact hexDigit_range (by omega)

theorem land_255 (n : Nat) : n &&& 0xFF = n % 256 := Nat.and_two_pow_sub_one_eq_mod n 8

theorem wordByte_lt (w i : Nat) : wordByte w i < 256 := by
  rw [wordByte, land_255]
  exact Nat.mod_lt _ (by omega)

@[simp] theorem header_length (p : Params) : (header p).length = 5 := rfl

@[simp] theorem footer_length (p : Params) (crc : Nat) : (footer p crc).length = 3 := rfl

/-- A list built from pieces of one length has the length of them all. -/
theorem flatMap_length_const {α β : Type} (l : List α) (f : α → List β) (k : Nat)
    (h : ∀ a ∈ l, (f a).length = k) : (l.flatMap f).length = l.length * k := by
  induction l with
  | nil => simp
  | cons a l ih =>
    have h1 := h a (by simp)
    have h2 := ih (fun b hb => h b (by simp [hb]))
    rw [List.flatMap_cons, List.length_append, h1, h2, List.length_cons]
    ring

@[simp] theorem columnText_length (p : Params) (w : ColumnWord) :
    (columnText p w).length = 2 * p.bpc := by
  rw [columnText, flatMap_length_const _ _ 2 (fun _ _ => rfl), List.length_range]
  ring

/-- `PAYLOAD_LEN = 2 * COLUMNS * BPC` (43_send_frame.md R121). -/
@[simp] theorem payload_length (p : Params) (buf : List ColumnWord) :
    (payload p buf).length = p.payloadLen := by
  rw [payload, flatMap_length_const _ _ (2 * p.bpc) (fun _ _ => columnText_length p _),
    List.length_range, Params.payloadLen]
  ring

/-- `FRAME_LEN = 5 + PAYLOAD_LEN + 3` (43_send_frame.md R127). -/
@[simp] theorem frame_length (p : Params) (buf : List ColumnWord) :
    (frame p buf).length = p.frameLen := by
  simp only [frame, List.length_append, header_length, payload_length, footer_length,
    Params.frameLen]

/-- The size of the raw data is a whole number of bytes per column (00_scope.md R13). -/
theorem dataSize_eq (p : Params) : p.dataSize = p.columns * p.bpc := by
  have h : p.rows = 8 * p.bpc := by
    simp only [Params.bpc, Params.rows]; omega
  rw [Params.dataSize, h, Nat.mul_assoc, Nat.mul_div_cancel_left _ (by omega), Nat.mul_comm]

@[simp] theorem byteSum_append (a b : List Byte) : byteSum (a ++ b) = byteSum a + byteSum b := by
  simp [byteSum]

@[simp] theorem byteSum_nil : byteSum [] = 0 := rfl

@[simp] theorem byteSum_cons (b : Byte) (bs : List Byte) :
    byteSum (b :: bs) = b.toNat + byteSum bs := by simp [byteSum]

theorem checkSum_lt (p : Params) (crc : Nat) : checkSum p crc < 256 := by
  rw [checkSum, land_255]; exact Nat.mod_lt _ (by omega)

theorem finalChecksum_lt (p : Params) (crc : Nat) : finalChecksum p crc < 256 := by
  rw [finalChecksum, land_255]; exact Nat.mod_lt _ (by omega)

/-- The exclusive or with 0xFF of a byte is its distance from 255. -/
theorem xor_255 {n : Nat} (h : n < 256) : n ^^^ 0xFF = 255 - n := by
  interval_cases n <;> rfl

/-- `finalChecksum = (256 - sum) mod 256`, "the 8-bit two's-complement negation of `sum`"
(43_send_frame.md R126 (a)). -/
theorem finalChecksum_eq (p : Params) (crc : Nat) :
    finalChecksum p crc = (256 - checkSum p crc) % 256 := by
  have h := checkSum_lt p crc
  rw [finalChecksum, xor_255 h, land_255]
  congr 1
  omega

/-- Once for all uses: what presenting the frame from byte `pos` on can do. It ends with success and
every byte out; or a write fails after `k` bytes; or it waits for the answer to the byte after the
first `k`. The buffer, the orientation and the caller's moves stay (43_send_frame.md R128 to R131). -/
theorem resumeSend_cases (pos : Nat) (s : State) :
    (∃ rest, resumeSend pos s = respond true .none { s with
        tx := s.tx ++ (frame s.params s.buf).drop pos, answers := rest, sending := none }) ∨
    (∃ k rest, pos + k < s.params.frameLen ∧ resumeSend pos s = respond false .writeFail { s with
        tx := s.tx ++ ((frame s.params s.buf).drop pos).take k, answers := rest, sending := none }) ∨
    (∃ k rest, pos + k < s.params.frameLen ∧ resumeSend pos s = { s with
        tx := s.tx ++ ((frame s.params s.buf).drop pos).take k, answers := rest,
        sending := some (pos + k) }) := by
  have hlen : ((frame s.params s.buf).drop pos).length = s.params.frameLen - pos := by simp
  unfold resumeSend
  rcases transmit_cases ((frame s.params s.buf).drop pos) s.answers with
    ⟨rest, -, ht⟩ | ⟨k, rest, hk, -, ht⟩ | ⟨k, rest, hk, -, ht⟩ | ⟨k, hk, -, ht⟩
  · exact .inl ⟨rest, by rw [ht]⟩
  · exact .inr (.inl ⟨k, rest, by omega, by rw [ht]⟩)
  · refine .inr (.inr ⟨k, rest, by omega, ?_⟩)
    rw [ht]
    simp only [List.length_take, Nat.min_eq_left hk.le]
  · refine .inr (.inr ⟨k, [], by omega, ?_⟩)
    rw [ht]
    simp only [List.length_take, Nat.min_eq_left hk.le]

/-- A transport that takes every byte left: the frame is out and `SEND` succeeds. -/
theorem resumeSend_allTaken {s : State} {pos : Nat} {rest : List TxAnswer}
    (h : s.answers = List.replicate (s.params.frameLen - pos) .ok ++ rest) :
    resumeSend pos s = respond true .none { s with
      tx := s.tx ++ (frame s.params s.buf).drop pos, answers := rest, sending := none } := by
  have hlen : ((frame s.params s.buf).drop pos).length = s.params.frameLen - pos := by simp
  have ht := transmit_allTaken ((frame s.params s.buf).drop pos) rest
  rw [hlen, ← h] at ht
  simp only [resumeSend, ht]

/-- A write that fails after `k` more bytes. -/
theorem resumeSend_failed {s : State} {pos k : Nat} {rest : List TxAnswer}
    (hk : pos + k < s.params.frameLen) (h : s.answers = List.replicate k .ok ++ .fail :: rest) :
    resumeSend pos s = respond false .writeFail { s with
      tx := s.tx ++ ((frame s.params s.buf).drop pos).take k, answers := rest, sending := none } := by
  have ht := transmit_failed (bytes := (frame s.params s.buf).drop pos) (k := k) (by simp; omega) rest
  rw [← h] at ht
  simp only [resumeSend, ht]

/-- A stall after `k` more bytes. -/
theorem resumeSend_stalled {s : State} {pos k : Nat} {rest : List TxAnswer}
    (hk : pos + k < s.params.frameLen) (h : s.answers = List.replicate k .ok ++ .stall :: rest) :
    resumeSend pos s = { s with
      tx := s.tx ++ ((frame s.params s.buf).drop pos).take k, answers := rest,
      sending := some (pos + k) } := by
  have hk' : k < ((frame s.params s.buf).drop pos).length := by simp; omega
  have ht := transmit_stalled hk' rest
  rw [← h] at ht
  simp only [resumeSend, ht, List.length_take, Nat.min_eq_left hk'.le]

/-- A transport with no answer after `k` more bytes. -/
theorem resumeSend_unanswered {s : State} {pos k : Nat} (hk : pos + k < s.params.frameLen)
    (h : s.answers = List.replicate k .ok) :
    resumeSend pos s = { s with
      tx := s.tx ++ ((frame s.params s.buf).drop pos).take k, answers := [],
      sending := some (pos + k) } := by
  have hk' : k < ((frame s.params s.buf).drop pos).length := by simp; omega
  have ht := transmit_unanswered hk'
  rw [← h] at ht
  simp only [resumeSend, ht, List.length_take, Nat.min_eq_left hk'.le]

end Sys2Proof.Machine
end

