-- ==== Sys2Proof/Laws/PerInstr.lean ====
section
/-! SUPPORT. The family PacketShape: a statement about each command as syntax, one lemma per
constructor of Instr (30_encoding.md R61, R63). -/

namespace Sys2Proof.Laws.PacketShape

/-- The packet of a command begins with an assigned opcode and is at least as long as that opcode's
format asks (30_encoding.md R61, R63): it is never `ILLEGAL` by (a), (b) or (d) of R66. -/
def Statement (i : Instr) : Prop :=
  ∀ xb, ∃ opcode operands, encode xb i = opcode :: operands ∧
    1 ≤ opcode.toNat ∧ opcode.toNat ≤ 8 ∧ minLength xb opcode ≤ (encode xb i).length

theorem set (col row : Int) (state : Bool) : Statement (.set col row state) :=
  fun _ => ⟨_, _, rfl, by decide, by decide, by simp [encode, minLength]; omega⟩

theorem get (col row : Int) : Statement (.get col row) :=
  fun _ => ⟨_, _, rfl, by decide, by decide, by simp [encode, minLength]; omega⟩

theorem invert (col row : Int) : Statement (.invert col row) :=
  fun _ => ⟨_, _, rfl, by decide, by decide, by simp [encode, minLength]; omega⟩

theorem fillAll : Statement .fillAll :=
  fun _ => ⟨_, _, rfl, by decide, by decide, by simp [encode, minLength]⟩

theorem eraseAll : Statement .eraseAll :=
  fun _ => ⟨_, _, rfl, by decide, by decide, by simp [encode, minLength]⟩

theorem toggleOrientation : Statement .toggleOrientation :=
  fun _ => ⟨_, _, rfl, by decide, by decide, by simp [encode, minLength]⟩

theorem writeText (col row : Int) (text : List Byte) : Statement (.writeText col row text) :=
  fun _ => ⟨_, _, rfl, by decide, by decide, by simp [encode, minLength]; omega⟩

theorem send : Statement .send :=
  fun _ => ⟨_, _, rfl, by decide, by decide, by simp [encode, minLength]⟩

end Sys2Proof.Laws.PacketShape
end

