-- ==== Sys2Proof/Laws/Step.lean ====
section
/-! SUPPORT. What a command and a step can do, said once each: every invariant is derived from these
two inversion lemmas instead of unfolding `exec` and `step` again. -/

namespace Sys2Proof.Machine

/-- The next state of a dot mutation: the word written and success, or out of range. -/
theorem answerMutation_modifyDot (s : State) (col row : Int) (f : ColumnWord → Nat → ColumnWord) :
    (mapDot s col row = none ∧
      answerMutation s (modifyDot s col row f) = respond false .outOfRange s) ∨
    ∃ c r, mapDot s col row = some (c, r) ∧
      answerMutation s (modifyDot s col row f) =
        respond true .none (writeWord s c (f (wordAt s.buf c) r)) := by
  rcases modifyDot_cases s col row f with ⟨hm, h⟩ | ⟨c, r, hm, h⟩
  · exact .inl ⟨hm, by rw [h]; rfl⟩
  · exact .inr ⟨c, r, hm, by rw [h]; rfl⟩

/-- What executing a command can do. A command other than SEND changes at most the buffer and the
orientation and adds one response; SEND is refused for want of a transport or presents the frame. -/
theorem exec_cases (i : Instr) (s : State) :
    (i ≠ .send ∧ ∃ t ret cause, exec i s = .next (respond ret cause t) ∧
      t = { s with buf := t.buf, orient := t.orient }) ∨
    (i = .send ∧ s.attached = false ∧ exec i s = .next (respond false .noTransport s)) ∨
    (i = .send ∧ s.attached = true ∧ exec i s = .next (resumeSend 0 s)) := by
  cases i with
  | set col row state =>
    refine .inl ⟨by simp, ?_⟩
    rcases answerMutation_modifyDot s col row (if state then setBit else clearBit) with
      ⟨-, h⟩ | ⟨c, r, -, h⟩
    · exact ⟨s, _, _, congrArg Host.Outcome.next h, rfl⟩
    · exact ⟨_, _, _, congrArg Host.Outcome.next h, rfl⟩
  | get col row =>
    refine .inl ⟨by simp, ?_⟩
    simp only [exec, execGet]
    cases readDot s col row with
    | none => exact ⟨s, _, _, rfl, rfl⟩
    | some v => exact ⟨s, _, _, rfl, rfl⟩
  | invert col row =>
    refine .inl ⟨by simp, ?_⟩
    rcases answerMutation_modifyDot s col row flipBit with ⟨-, h⟩ | ⟨c, r, -, h⟩
    · exact ⟨s, _, _, congrArg Host.Outcome.next h, rfl⟩
    · exact ⟨_, _, _, congrArg Host.Outcome.next h, rfl⟩
  | fillAll => exact .inl ⟨by simp, _, _, _, rfl, rfl⟩
  | eraseAll => exact .inl ⟨by simp, _, _, _, rfl, rfl⟩
  | toggleOrientation => exact .inl ⟨by simp, _, _, _, rfl, rfl⟩
  | writeText col row text =>
    refine .inl ⟨by simp, _, _, _, rfl, ?_⟩
    have h := (drawText_lights (s := writeAllWords s 0) (by simp) row col text).1
    rw [h]; rfl
  | send =>
    cases h : s.attached with
    | false => exact .inr (.inl ⟨rfl, rfl, by simp [exec, execSend, h]⟩)
    | true => exact .inr (.inr ⟨rfl, rfl, by simp [exec, execSend, h]⟩)

/-- What a step can do, once for all uses. -/
theorem step_cases {s t : State} (h : step s = .next t) :
    s.params.legal = true ∧
    ((∃ pos, s.sending = some pos ∧ t = resumeSend pos s) ∨
     (s.sending = none ∧ s.caller = [] ∧ t = s) ∨
     (∃ bytes moves e, s.sending = none ∧ s.caller = .packet bytes :: moves ∧
        decode s.params.xb bytes = .error e ∧
        t = respond false .illegal { s with caller := moves }) ∨
     (∃ bytes moves i, s.sending = none ∧ s.caller = .packet bytes :: moves ∧
        decode s.params.xb bytes = .ok i ∧ exec i { s with caller := moves } = .next t) ∨
     (∃ present moves, s.sending = none ∧ s.caller = .attach present :: moves ∧
        t = { s with caller := moves, attached := present }) ∨
     (∃ moves, s.sending = none ∧ s.caller = .reset :: moves ∧
        t = resetBlock { s with caller := moves }) ∨
     (∃ f moves, s.sending = none ∧ s.caller = .setSpeed f :: moves ∧
        t = setSpeedFactor f { s with caller := moves }) ∨
     (∃ moves, s.sending = none ∧ s.caller = .getSpeed :: moves ∧
        t = getSpeedFactor { s with caller := moves }) ∨
     (∃ d moves, s.sending = none ∧ s.caller = .adjustDelay d :: moves ∧
        t = adjustDelay d { s with caller := moves })) := by
  unfold step at h
  split at h
  case isFalse => cases h
  case isTrue hl =>
    refine ⟨hl, ?_⟩
    unfold nextAction at h
    cases hs : s.sending with
    | some pos =>
      simp only [hs] at h
      cases h
      exact .inl ⟨pos, rfl, rfl⟩
    | none =>
      simp only [hs] at h
      right
      cases hc : s.caller with
      | nil =>
        simp only [hc] at h
        cases h
        exact .inl ⟨rfl, rfl, rfl⟩
      | cons m moves =>
        simp only [hc] at h
        right
        cases m with
        | packet bytes =>
          simp only [takeMove, takePacket] at h
          cases hd : decode s.params.xb bytes with
          | error e =>
            simp only [hd] at h
            cases h
            exact .inl ⟨bytes, moves, e, rfl, rfl, hd, rfl⟩
          | ok i =>
            simp only [hd] at h
            exact .inr (.inl ⟨bytes, moves, i, rfl, rfl, hd, h⟩)
        | attach present =>
          cases h
          exact .inr (.inr (.inl ⟨present, moves, rfl, rfl, rfl⟩))
        | reset =>
          cases h
          exact .inr (.inr (.inr (.inl ⟨moves, rfl, rfl, rfl⟩)))
        | setSpeed f =>
          cases h
          exact .inr (.inr (.inr (.inr (.inl ⟨f, moves, rfl, rfl, rfl⟩))))
        | getSpeed =>
          cases h
          exact .inr (.inr (.inr (.inr (.inr (.inl ⟨moves, rfl, rfl, rfl⟩)))))
        | adjustDelay d =>
          cases h
          exact .inr (.inr (.inr (.inr (.inr (.inr ⟨d, moves, rfl, rfl, rfl⟩)))))

/-- A step of an instance that resumes a stalled SEND. -/
theorem step_of_sending {s : State} {pos : Nat} (hl : s.params.legal = true)
    (h : s.sending = some pos) : step s = .next (resumeSend pos s) := by
  simp only [step, hl, if_true, nextAction, h]

/-- A step of an idle instance that takes the caller's move. -/
theorem step_of_awaits {s : State} {m : CallerMove} {moves : List CallerMove}
    (h : Awaits s m moves) :
    step s = match takeMove m { s with caller := moves } with
      | .done t => .next t
      | .run i t => exec i t := by
  obtain ⟨hl, hs, hc⟩ := h
  have hn : nextAction s = takeMove m { s with caller := moves } := by
    simp only [nextAction, hs, hc]
  cases ha : takeMove m { s with caller := moves } <;> rw [ha] at hn <;>
    simp only [step, hl, if_true, hn]

/-- A run of any machine whose first step answers a next state goes on from there. -/
theorem run_succ_of_step (M : Host.Core) {s t : M.State} (h : M.step s = .next t) (k : Nat) :
    M.run (k + 1) s = M.run k t := by
  rw [Host.Core.run, h]

/-- The same for this machine, in the names of its step. -/
theorem run_succ {s t : State} (h : step s = .next t) (k : Nat) :
    Host.Core.run Sys2Proof.core (k + 1) s = Host.Core.run Sys2Proof.core k t :=
  run_succ_of_step Sys2Proof.core h k

end Sys2Proof.Machine
end

