-- ==== Sys2Proof/Tests/Slice0.lean ====
section
/-! SUPPORT. Tests. Every expected value is copied from spec/ (the vector or rule is named) or worked
out by hand from the rule named; none is the model's own answer pasted back. Part 1: the decoder.
Part 2: ill-formed terms. Part 3: one step or one operation at a time. Part 4: for each obligation
with hypotheses, states and operands that meet them, at the boundary values of its clauses. -/

namespace Sys2Proof.Tests

open Sys2Proof.Machine

/-! ### Fixtures -/

/-- The fixture font `TF` of 95_test_vectors.md, made up by the spec, not the hardware's. -/
def fontTF : Font :=
  .table [(0x41, ⟨0x01, 0x02, 0x04, 0x08, 0x7F⟩), (0x42, ⟨0x55, 0x2A, 0x00, 0x40, 0x41⟩)]

/-- The default parameters with another address and size, and the fixture font. -/
def params (addr columns rowsReq : Nat) : Params :=
  { Params.default with addr := addr, columns := columns, rowsReq := rowsReq, font := fontTF }

/-- A display of that many columns and 8 or more rows, in an orientation, with this buffer. -/
def display (columns rowsReq : Nat) (o : Orientation) (buf : List ColumnWord) : State :=
  { State.construct (params 2 columns rowsReq) with orient := o, buf := buf }

/-- The display of vector V1 with a transport attached that gives these answers. -/
def sender (answers : List TxAnswer) : State :=
  { display 1 8 .normal [0x00] with attached := true, answers := answers }

/-- A small idle block whose caller makes this one move. -/
def caller (m : CallerMove) : State :=
  { display 2 8 .normal [0x00, 0x00] with caller := [m] }

/-- What an outcome left: buffer, responses, wire; nothing where the machine stopped. -/
def left : Host.Outcome State Fault Refusal → List ColumnWord × List Response × List Byte
  | .next t => (t.buf, t.rsp, t.tx)
  | .fault _ => ([], [], [])
  | .refused _ => ([], [], [])

/-! ### Part 1. The decoder, from packets written out byte by byte (30_encoding.md R61 to R63) -/

/-- V22: format PS. -/
theorem test_decode_set : decode 2 [0x01, 0x01, 0x00, 0x07, 0x00, 0x01] = .ok (.set 1 7 true) := by
  decide

/-- V22: a negative column, `sext_16(0xFFFF) = -1`. -/
theorem test_decode_set_negative :
    decode 2 [0x01, 0xFF, 0xFF, 0x00, 0x00, 0x01] = .ok (.set (-1) 0 true) := by decide

/-- V22: format P, opcode 0x02. -/
theorem test_decode_get : decode 2 [0x02, 0x05, 0x00, 0x05, 0x00] = .ok (.get 5 5) := by decide

/-- V22: format P, opcode 0x03. -/
theorem test_decode_invert : decode 2 [0x03, 0x00, 0x00, 0x10, 0x00] = .ok (.invert 0 16) := by
  decide

/-- V22: format Z, opcode 0x04. -/
theorem test_decode_fillAll : decode 2 [0x04] = .ok .fillAll := by decide

/-- V22: format Z, opcode 0x05. -/
theorem test_decode_eraseAll : decode 2 [0x05] = .ok .eraseAll := by decide

/-- V22: format Z, opcode 0x06. -/
theorem test_decode_toggleOrientation : decode 2 [0x06] = .ok .toggleOrientation := by decide

/-- V21 row 2: format T, `"A?B"` at (-2,1). -/
theorem test_decode_writeText : decode 2 [0x07, 0xFE, 0xFF, 0x01, 0x00, 0x41, 0x3F, 0x42] =
    .ok (.writeText (-2) 1 [0x41, 0x3F, 0x42]) := by decide

/-- V22: the empty text. -/
theorem test_decode_writeText_empty :
    decode 2 [0x07, 0x00, 0x00, 0x00, 0x00] = .ok (.writeText 0 0 []) := by decide

/-- V22: format Z, opcode 0x08. -/
theorem test_decode_send : decode 2 [0x08] = .ok .send := by decide

/-- V22: every `ILLEGAL` row. -/
theorem test_decode_illegal :
    decode 2 [0x01, 0x01, 0x00, 0x07, 0x00, 0x02] = .error .badState ∧
    decode 2 [0x01, 0x01, 0x00, 0x07, 0x00] = .error .wrongLength ∧
    decode 2 [0x02, 0x05, 0x00, 0x05, 0x00, 0x00] = .error .wrongLength ∧
    decode 2 [0x04, 0x00] = .error .wrongLength ∧
    decode 2 [0x07, 0x00, 0x00, 0x00] = .error .shortText ∧
    decode 2 [0x00] = .error .unassignedOpcode ∧
    decode 2 [0x09] = .error .unassignedOpcode ∧
    decode 2 [0xFF, 0x01, 0x02] = .error .unassignedOpcode ∧
    decode 2 [] = .error .emptyPacket := by decide

/-- 30_encoding.md R62: the ends of the 16-bit range. -/
theorem test_decode_coordinate_ends :
    decode 2 [0x02, 0x00, 0x80, 0xFF, 0x7F] = .ok (.get (-32768) 32767) := by decide

/-- V22, the last paragraph: `SET 1,7,1` as an integer; and `XW = 8`, by hand from R61. -/
theorem test_decode_table_word :
    decodeTableWord 48 0x010007000101 = some (.set 1 7 true) ∧
    decodeTableWord 48 0x020007000101 = none ∧
    decode 1 [0x02, 0xFF, 0x7F] = .ok (.get (-1) 127) := by decide

/-! ### Part 2. Ill-formed terms, one for each bound of each coordinate -/

/-- The bounds of R10 at `XW = 16`, one step outside each. -/
theorem test_ill_formed_set :
    wellFormed 16 (.set (-32769) 0 true) = false ∧ wellFormed 16 (.set 32768 0 true) = false ∧
    wellFormed 16 (.set 0 (-32769) true) = false ∧ wellFormed 16 (.set 0 32768 true) = false := by
  decide

theorem test_ill_formed_get :
    wellFormed 16 (.get (-32769) 0) = false ∧ wellFormed 16 (.get 32768 0) = false ∧
    wellFormed 16 (.get 0 (-32769)) = false ∧ wellFormed 16 (.get 0 32768) = false := by decide

theorem test_ill_formed_invert :
    wellFormed 16 (.invert (-32769) 0) = false ∧ wellFormed 16 (.invert 32768 0) = false ∧
    wellFormed 16 (.invert 0 (-32769)) = false ∧ wellFormed 16 (.invert 0 32768) = false := by decide

theorem test_ill_formed_writeText :
    wellFormed 16 (.writeText (-32769) 0 []) = false ∧
    wellFormed 16 (.writeText 32768 0 []) = false ∧
    wellFormed 16 (.writeText 0 (-32769) []) = false ∧
    wellFormed 16 (.writeText 0 32768 []) = false := by decide

/-- The same check at `XW = 8`. -/
theorem test_ill_formed_narrow :
    wellFormed 8 (.get (-129) 0) = false ∧ wellFormed 8 (.get 0 128) = false ∧
    wellFormed 8 (.get (-128) 127) = true := by decide

/-! ### Part 3. Operations and single commands -/

/-- V19: the mapper, both orientations and all four edges. -/
theorem test_mapper_normal :
    mapDot (display 84 8 .normal []) 83 7 = some (83, 7) ∧
    mapDot (display 84 8 .normal []) 84 0 = none ∧
    mapDot (display 84 8 .normal []) 0 8 = none ∧
    mapDot (display 84 8 .normal []) (-1) 0 = none ∧
    mapDot (display 84 8 .normal []) 32767 32767 = none := by decide

/-- V19. -/
theorem test_mapper_flipped :
    mapDot (display 84 8 .flipped []) 10 2 = some (73, 5) ∧
    mapDot (display 84 8 .flipped []) 84 0 = none ∧
    mapDot (display 84 8 .flipped []) 0 (-1) = none ∧
    mapDot (display 84 8 .flipped []) (-32768) 0 = none ∧
    mapDot (display 3 16 .flipped []) 1 6 = some (1, 9) := by decide

/-- V17: row rounding. -/
theorem test_row_rounding :
    [1, 5, 7, 8, 9, 12, 16, 17, 24].map (fun n => (params 2 1 n).rows) =
      [8, 8, 8, 8, 16, 16, 16, 24, 24] := by decide

/-- V20 rows 1 and 3. -/
theorem test_set_and_clear :
    left (exec (.set 1 7 true) (display 2 8 .normal [0x00, 0x00])) = ([0x00, 0x80], [0x8], []) ∧
    left (exec (.set 1 7 false) (display 2 8 .normal [0x00, 0x80])) = ([0x00, 0x00], [0x8], []) := by
  decide

/-- V20 row 5: out of range in both coordinates. -/
theorem test_set_out_of_range :
    left (exec (.set 300 (-2) false) (display 2 8 .normal [0x00, 0x00])) =
      ([0x00, 0x00], [0x1], []) := by decide

/-- 40_dot_ops.md R82, example: a lit dot, a dark dot, out of range. -/
theorem test_get :
    left (exec (.get 1 7) (display 2 8 .normal [0x01, 0x80])) = ([0x01, 0x80], [0x8], []) ∧
    left (exec (.get 1 6) (display 2 8 .normal [0x01, 0x80])) = ([0x01, 0x80], [0x0], []) ∧
    left (exec (.get 5 5) (display 2 8 .normal [0x01, 0x80])) = ([0x01, 0x80], [0x1], []) := by decide

/-- P2 row 4: under the flipped orientation `GET 0,0` reads physical (2,15). -/
theorem test_get_flipped :
    left (exec (.get 0 0) (display 3 12 .flipped [0x0001, 0x0000, 0x0000])) =
      ([0x0001, 0x0000, 0x0000], [0x0], []) := by decide

/-- 40_dot_ops.md R83, example. -/
theorem test_invert :
    left (exec (.invert 1 6) (display 3 16 .flipped [0x0001, 0x0000, 0x8000])) =
      ([0x0001, 0x0200, 0x8000], [0x8], []) := by decide

/-- V20 row 8. -/
theorem test_invert_out_of_range :
    left (exec (.invert (-1) (-1)) (display 2 8 .normal [0x00, 0x00])) =
      ([0x00, 0x00], [0x1], []) := by decide

/-- V20, the `FILL_ALL` values: `ROWS_REQ = 5` gives 0xFF, `ROWS = 24` gives 0xFFFFFF. -/
theorem test_fillAll :
    left (exec .fillAll (display 2 5 .flipped [0x00, 0x12])) = ([0xFF, 0xFF], [0x8], []) ∧
    left (exec .fillAll (display 1 24 .normal [0x00])) = ([0xFFFFFF], [0x8], []) := by decide

/-- 41_bulk_ops.md R92, example. -/
theorem test_eraseAll :
    left (exec .eraseAll (display 2 8 .normal [0x01, 0x80])) = ([0x00, 0x00], [0x8], []) := by decide

/-- 41_bulk_ops.md R94, example: after the toggle `GET 2,15` reads physical (0,0). -/
theorem test_toggleOrientation :
    left (execAll [.toggleOrientation, .get 2 15] (display 3 16 .normal [0x0001, 0, 0])) =
      ([0x0001, 0, 0], [0x8, 0x8], []) := by decide

/-- V21 row 2: left clip, row offset, an unsupported character, right clip. -/
theorem test_writeText_clipped :
    left (exec (.writeText (-2) 1 [0x41, 0x3F, 0x42])
      (display 9 8 .normal [0xFF, 0xFF, 0xFF, 0xFF, 0xFF, 0xFF, 0xFF, 0xFF, 0xFF])) =
      ([0x08, 0x10, 0xFE, 0, 0, 0, 0, 0, 0], [0x8], []) := by decide

/-- V21 row 5: flipped. -/
theorem test_writeText_flipped :
    left (exec (.writeText 0 0 [0x41]) (display 9 8 .flipped [0, 0, 0, 0, 0, 0, 0, 0, 0])) =
      ([0, 0, 0, 0, 0xFE, 0x10, 0x20, 0x40, 0x80], [0x8], []) := by decide

/-- V1: the source's worked frame, on the wire. -/
theorem test_send_worked_frame :
    left (exec .send (sender (List.replicate 10 .ok))) =
      ([0x00], [0x8], [0x02, 0x31, 0x32, 0x30, 0x31, 0x30, 0x30, 0x03, 0x44, 0x39]) := by decide

/-- V23 rows 1 and 3: no transport; five bytes taken and the sixth failed. -/
theorem test_send_failures :
    left (exec .send (display 1 8 .normal [0x00])) = ([0x00], [0x2], []) ∧
    left (exec .send (sender [.ok, .ok, .ok, .ok, .ok, .fail])) =
      ([0x00], [0x3], [0x02, 0x31, 0x32, 0x30, 0x31]) := by decide

/-- V12: the one case where the final mask matters. -/
theorem test_frame_zero_sum : frame (params 2 3 8) [0x00, 0x1F, 0x00] =
    [0x02, 0x31, 0x32, 0x30, 0x33, 0x30, 0x30, 0x31, 0x46, 0x30, 0x30, 0x03, 0x30, 0x30] := by decide

/-- V18: byte order inside a column word. -/
theorem test_frame_byte_order : frame (params 2 2 16) [0xABCD, 0x0012] =
    [0x02, 0x31, 0x32, 0x30, 0x34, 0x43, 0x44, 0x41, 0x42, 0x31, 0x32, 0x30, 0x30, 0x03,
     0x36, 0x39] := by decide

/-- V15, V16: the highest address; the size field of 300 data bytes. -/
theorem test_header : header (params 16 1 8) = [0x02, 0x32, 0x30, 0x30, 0x31] ∧
    header (params 2 300 8) = [0x02, 0x31, 0x32, 0x32, 0x43] := by decide

/-- V22: an `ILLEGAL` packet is answered `0/4` and changes nothing. -/
theorem test_step_illegal : left (step (caller (.packet [0x09]))) = ([0x00, 0x00], [0x4], []) := by
  decide

/-- V20 row 1, as a packet. -/
theorem test_step_packet :
    left (step (caller (.packet [0x01, 0x01, 0x00, 0x07, 0x00, 0x01]))) =
      ([0x00, 0x80], [0x8], []) := by decide

/-- The placed word of the `SET` row is the next command the default instance runs. -/
theorem test_step_placed_word :
    (left (step (State.reset.withFetchWord 48 0x010007000101))).2.1 = [0x8] := by decide

/-- V24: the clamp and the returned delay, single operations. -/
theorem test_speed_unit :
    (setSpeedFactor (-3) State.reset).speed = 1 / 20 ∧
    (setSpeedFactor (1 / 100) State.reset).speed = 1 / 100 ∧
    (adjustDelay (1 / 2) { State.reset with speed := 2 }).spd = [1] := by
  refine ⟨?_, ?_, ?_⟩
  · show (if (0 : Rat) < -3 then (-3 : Rat) else 1 / 20) = 1 / 20
    norm_num
  · show (if (0 : Rat) < 1 / 100 then (1 / 100 : Rat) else 1 / 20) = 1 / 100
    norm_num
  · show [(1 / 2 : Rat) * 2] = [1]
    norm_num

/-! ### Part 4. Witnesses: the hypotheses of each obligation are met -/

/-- A font without `'A'`: no instance exists with it. -/
def fontless : Params := { params 2 2 8 with font := .table [] }

/-- DecodingAnEncodingReturnsTheCommand: the ends of the range at `XW` = 8, 16 and 24. -/
theorem test_witness_fitting_commands :
    wellFormed (8 * 1) (.get (-128) 127) = true ∧
    wellFormed (8 * 2) (.set (-32768) 32767 true) = true ∧
    wellFormed (8 * 3) (.writeText 8388607 (-8388608) [0x41]) = true := by decide

/-- EncodingADecodedPacketReturnsIt. -/
theorem test_witness_decoded_packet :
    decode 2 [0x01, 0xFF, 0xFF, 0x00, 0x80, 0x00] = .ok (.set (-1) (-32768) false) ∧
    decode 1 [0x07, 0x80, 0x7F, 0x41] = .ok (.writeText (-128) 127 [0x41]) := by decide

/-- OperandsAreReadFromTheirBytes: both sides of the sign, and the byte order (300 = 0x012C, V20). -/
theorem test_witness_operand_bytes :
    signed16 0xFF 0x7F = 32767 ∧ signed16 0x00 0x80 = -32768 ∧ signed16 0x2C 0x01 = 300 ∧
    signed16 0xFE 0xFF = -2 := by decide

/-- IllegalPacketChangesNothing: each of the five errors, on the block that waits for the packet. -/
theorem test_witness_illegal_packet :
    Awaits (caller (.packet [])) (.packet []) [] ∧ Awaits (caller (.packet [0x09])) (.packet [0x09]) [] ∧
    decode (caller (.packet [])).params.xb [] = .error .emptyPacket ∧
    decode (caller (.packet [0x09])).params.xb [0x09] = .error .unassignedOpcode ∧
    decode (caller (.packet [])).params.xb [0x08, 0x00] = .error .wrongLength ∧
    decode (caller (.packet [])).params.xb [0x07] = .error .shortText ∧
    decode (caller (.packet [])).params.xb [0x01, 0, 0, 0, 0, 0xFF] = .error .badState :=
  ⟨⟨by decide, rfl, rfl⟩, ⟨by decide, rfl, rfl⟩, by decide, by decide, by decide, by decide, by decide⟩

/-- MapperTransformsThenChecksBounds: both sides of each of the four bounds, both orientations, and
a display built with 5 rows. -/
theorem test_witness_mapper_bounds :
    mapDot (display 84 8 .normal []) 0 0 = some (0, 0) ∧
    mapDot (display 84 8 .normal []) 83 7 = some (83, 7) ∧
    mapDot (display 84 8 .normal []) 0 (-1) = none ∧
    mapDot (display 84 8 .flipped []) 0 0 = some (83, 7) ∧
    mapDot (display 84 8 .flipped []) 83 7 = some (0, 0) ∧
    mapDot (display 84 8 .flipped []) (-1) 0 = none ∧
    mapDot (display 84 8 .flipped []) 0 8 = none ∧
    (display 84 5 .flipped []).params.rowsReq = 5 ∧
    mapDot (display 84 5 .flipped []) 83 0 = some (0, 7) := by decide

/-- MapperIsAVerdictPreservingBijection: in-range and out-of-range points, a physical dot, a flipped
display with dots. -/
theorem test_witness_mapper_bijection :
    inRange (params 2 84 8) 83 7 ∧ ¬ inRange (params 2 84 8) 84 0 ∧
    mapDot (display 84 8 .flipped []) 10 2 = mapDot (display 84 8 .flipped []) 10 2 ∧
    83 < (params 2 84 8).columns ∧ 7 < (params 2 84 8).rows ∧
    (display 84 8 .flipped []).orient = .flipped ∧ 1 ≤ (params 2 84 8).columns ∧
    1 ≤ (params 2 84 8).rows := by
  refine ⟨⟨?_, ?_, ?_, ?_⟩, fun h => absurd h.2.1 ?_, rfl, ?_, ?_, rfl, ?_, ?_⟩ <;> decide

/-- SetWritesExactlyOneDot, InvertComplementsExactlyOneDot, GetReadsTheMappedDot and
InvertTwiceRestoresTheBuffer, ToggleReinterpretsDrawnDots: all four corners. -/
theorem test_witness_in_range :
    (display 2 8 .flipped [0x00, 0x80]).buf.length = (display 2 8 .flipped [0x00, 0x80]).params.columns ∧
    inRange (display 2 8 .flipped [0x00, 0x80]).params 0 0 ∧
    inRange (display 2 8 .flipped [0x00, 0x80]).params 1 0 ∧
    inRange (display 2 8 .flipped [0x00, 0x80]).params 0 7 ∧
    inRange (display 2 8 .flipped [0x00, 0x80]).params 1 7 := by
  refine ⟨rfl, ⟨?_, ?_, ?_, ?_⟩, ⟨?_, ?_, ?_, ?_⟩, ⟨?_, ?_, ?_, ?_⟩, ⟨?_, ?_, ?_, ?_⟩⟩ <;> decide

/-- OutOfRangeDotCommandsChangeNothing: one step past each edge, and the ends of the operands. -/
theorem test_witness_out_of_range :
    ¬ inRange (params 2 2 8) (-1) 0 ∧ ¬ inRange (params 2 2 8) 2 0 ∧
    ¬ inRange (params 2 2 8) 0 (-1) ∧ ¬ inRange (params 2 2 8) 0 8 ∧
    ¬ inRange (params 2 2 8) (-32768) 32767 := by
  refine ⟨fun h => absurd h.1 ?_, fun h => absurd h.2.1 ?_, fun h => absurd h.2.2.1 ?_,
    fun h => absurd h.2.2.2 ?_, fun h => absurd h.1 ?_⟩ <;> decide

/-- ReadAfterWriteAcrossOtherCommands: commands that spare dot (1,7), neighbours included, under
both orientations. -/
theorem test_witness_spares :
    (∀ i ∈ [Instr.set 1 6 true, .set 0 7 false, .invert (-1) 7, .get 1 7, .send],
      sparesDot 1 7 i) ∧
    (display 2 8 .normal [0, 0]).buf.length = (display 2 8 .normal [0, 0]).params.columns ∧
    inRange (display 2 8 .normal [0, 0]).params 1 7 ∧
    left (execAll [.set 1 7 true, .set 1 6 true, .send, .get 1 7] (display 2 8 .flipped [0, 0])) =
      ([0x03, 0x00], [0x8, 0x8, 0x2, 0x8], []) := by
  refine ⟨?_, rfl, ⟨?_, ?_, ?_, ?_⟩, ?_⟩
  · simp [sparesDot]
  all_goals decide

/-- DotWritesLeaveOtherDotsReadable: another coordinate, and a write out of range. -/
theorem test_witness_other_dot :
    (∃ t, exec (.set 1 7 true) (display 2 8 .normal [0, 0]) = .next t) ∧
    (∃ t, exec (.invert 2 0) (display 2 8 .normal [0, 0]) = .next t) ∧
    ¬ ((1 : Int) = 1 ∧ (6 : Int) = 7) ∧ ¬ inRange (params 2 2 8) 2 0 :=
  ⟨⟨_, rfl⟩, ⟨_, rfl⟩, by decide, fun h => absurd h.2.1 (by decide)⟩

/-- GetAfterFillAndErase. -/
theorem test_witness_fill_erase :
    (∃ t, exec .fillAll (display 2 8 .flipped [0, 1]) = .next t) ∧
    (∃ t, exec .eraseAll (display 2 8 .flipped [0, 1]) = .next t) := ⟨⟨_, rfl⟩, ⟨_, rfl⟩⟩

/-- ToggleFlipsOrientationOnly. -/
theorem test_witness_orientations :
    (display 2 8 .normal []).orient = .normal ∧ (display 2 8 .flipped []).orient = .flipped :=
  ⟨rfl, rfl⟩

/-- WriteTextDrawsExactlyTheGlyphDots needs none; its right side is met: bit 6 of column 4 of `'A'`
as second character (column 10 of a display of 12) lights dot (10,6). -/
theorem test_witness_glyph_dot :
    [0x3F, (0x41 : Byte)][1]? = some 0x41 ∧ (fontTF.glyph 0x41).isSome = true ∧
    ((⟨0x01, 0x02, 0x04, 0x08, 0x7F⟩ : Glyph).column 4).getLsbD 6 = true ∧
    mapDot (display 12 8 .normal []) (0 + 6 * 1 + 4) (0 + 6) = some (10, 6) := by decide

/-- WriteTextOfAFillsTheFirstFiveColumns, at the least width, 5 columns. -/
theorem test_witness_letter_a :
    (display 5 8 .normal [0, 0, 0, 0, 0xFF]).orient = .normal ∧
    (display 5 8 .normal [0, 0, 0, 0, 0xFF]).params.rows = 8 ∧
    5 ≤ (display 5 8 .normal [0, 0, 0, 0, 0xFF]).params.columns ∧
    (display 5 8 .normal [0, 0, 0, 0, 0xFF]).params.font.glyph 0x41 =
      some ⟨0x01, 0x02, 0x04, 0x08, 0x7F⟩ := by decide

/-- UnsupportedCharactersOnlyAdvance, and the second clause of WriteTextAlwaysErasesFirst. -/
theorem test_witness_unsupported :
    (display 9 8 .normal []).params.font.glyph 0x3F = none ∧
    (∀ ch ∈ [(0x3F : Byte), 0x20], (display 9 8 .normal []).params.font.glyph ch = none) := by decide

/-- WriteTextAlwaysErasesFirst, its third clause: `"A"` just off the right edge (`col = 9`), the left
(`col = -5`), below (`row = 8`) and above (`row = -7`). -/
theorem test_witness_off_panel :
    ∀ p ∈ [((9 : Int), (0 : Int)), (-5, 0), (0, 8), (0, -7)],
      ∀ n i k : Nat, n < [(0x41 : Byte)].length → i < 5 → k < 7 →
        ¬ inRange (params 2 9 8) (p.1 + 6 * n + i) (p.2 + k) := by
  intro p hp n i k hn hi hk h
  obtain ⟨h₁, h₂, h₃, h₄⟩ := h
  rw [show ((params 2 9 8).columns : Int) = 9 from rfl] at h₂
  rw [show ((params 2 9 8).rows : Int) = 8 from by decide] at h₄
  simp only [List.mem_cons, List.not_mem_nil, or_false, List.length_singleton] at hp hn
  rcases hp with rfl | rfl | rfl | rfl <;> simp only at h₁ h₂ h₃ h₄ <;> omega

/-- HexPairsFollowTheDigitTable: 9 and 10, 15, and the bytes 0 and 255 (V9). -/
theorem test_witness_digits :
    hexDigit 9 = 0x39 ∧ hexDigit 10 = 0x41 ∧ hexDigit 15 = 0x46 ∧
    hex2 0x00 = [0x30, 0x30] ∧ hex2 0xFF = [0x46, 0x46] ∧ hex2 0x9A = [0x39, 0x41] := by decide

/-- HeaderCarriesAddressAndSize: data sizes 256, 257 and 300 (V16), and a step. -/
theorem test_witness_sizes :
    (params 2 256 8).dataSize = 256 ∧ (params 2 128 16).dataSize = 256 ∧
    (params 2 257 8).dataSize = 257 ∧ (params 2 300 8).dataSize = 300 ∧
    ∃ t, step (caller .getSpeed) = .next t := ⟨by decide, by decide, by decide, by decide, _, rfl⟩

/-- PayloadPlacesEveryDot: the last byte and the last dot of V18's 24-row display; its payload. -/
theorem test_witness_payload :
    0 < (params 2 1 24).columns ∧ 2 < (params 2 1 24).bpc ∧ 23 < (params 2 1 24).rows ∧
    payload (params 2 1 24) [0x010203] = [0x30, 0x33, 0x30, 0x32, 0x30, 0x31] := by decide

/-- ChecksumCoversHeaderAndPayloadText: the values of V12 meet its equations. -/
theorem test_witness_checksum_values :
    311 = byteSum (payload (params 2 3 8) [0x00, 0x1F, 0x00]) ∧
    0 = (byteSum (header (params 2 3 8)) + 311 + 1) &&& 0xFF ∧ 0 = ((0 ^^^ 0xFF) + 1) &&& 0xFF := by
  decide

/-- ChecksumIsTheTwosComplement: `sum` = 0 (V12), 255 (V13) and 1 (V14). -/
theorem test_witness_sums :
    checkSum (params 2 3 8) 311 = 0 ∧ checkSum (params 2 3 8) 310 = 255 ∧
    checkSum (params 2 3 8) 312 = 1 ∧ finalChecksum (params 2 3 8) 311 = 0 ∧
    finalChecksum (params 2 3 8) 310 = 1 ∧ finalChecksum (params 2 3 8) 312 = 255 := by decide

/-- FrameHasFixedLayout and DerivedConstantsFollowTheParameters: legal instances at both ends of the
address range; a position of the frame that is neither STX nor ETX. -/
theorem test_witness_legal :
    (params 1 1 1).legal = true ∧ (params 16 1 8).legal = true ∧
    (frame (params 2 1 8) [0x00])[5]? = some 0x30 ∧ 5 ≠ 5 + (params 2 1 8).payloadLen := by decide

/-- WorkedScenarioFrame. -/
theorem test_witness_worked_scenario :
    (params 2 1 8).columns = 1 ∧ (params 2 1 8).rowsReq = 8 ∧ (params 2 1 8).addr = 2 := by decide

/-- FrameDependsOnAddressSizeAndBufferAlone: two machines that differ in orientation, speed and font. -/
theorem test_witness_same_frame :
    ∃ s s' : State, s.orient ≠ s'.orient ∧ s.params.addr = s'.params.addr ∧
      s.params.columns = s'.params.columns ∧ s.params.rows = s'.params.rows ∧ s.buf = s'.buf ∧
      s.attached = s'.attached ∧ s.answers = s'.answers :=
  ⟨sender [.ok], { sender [.ok] with orient := .flipped, speed := 2, params := { params 2 1 5 with
    font := .hardware } }, by decide, rfl, rfl, by decide, rfl, rfl, rfl⟩

/-- SendEmitsTheWholeFrame: exactly ten answers, and answers left over. -/
theorem test_witness_send_all :
    (sender (List.replicate 10 .ok)).sending = none ∧
    (sender (List.replicate 10 .ok)).attached = true ∧
    (sender (List.replicate 10 .ok)).answers =
      List.replicate (sender (List.replicate 10 .ok)).params.frameLen .ok ++ [] ∧
    (sender (List.replicate 10 .ok ++ [.fail])).answers =
      List.replicate (sender []).params.frameLen .ok ++ [.fail] := by decide

/-- SendWithoutTransportEmitsNothing. -/
theorem test_witness_no_transport : State.reset.attached = false := rfl

/-- SendStopsAtAFailedWrite: the first byte and the last. -/
theorem test_witness_send_fails :
    0 < (sender [.fail]).params.frameLen ∧ 9 < (sender []).params.frameLen ∧
    (sender [.fail]).answers = List.replicate 0 .ok ++ .fail :: [] ∧
    (sender (List.replicate 9 .ok ++ [.fail, .ok])).answers =
      List.replicate 9 .ok ++ .fail :: [.ok] ∧
    (sender [.fail]).attached = true ∧ (sender [.fail]).sending = none := by decide

/-- SendWaitsForAStalledTransport: a stall at the first and at the last byte, and no answers. -/
theorem test_witness_send_stalls :
    (sender [.stall]).answers = List.replicate 0 .ok ++ .stall :: [] ∧
    (sender (List.replicate 9 .ok ++ [.stall])).answers = List.replicate 9 .ok ++ .stall :: [] ∧
    (sender (List.replicate 9 .ok)).answers = List.replicate 9 .ok ∧
    (sender []).answers = List.replicate 0 .ok ∧ 9 < (sender []).params.frameLen ∧
    (sender []).attached = true := by decide

/-- StalledSendHoldsTheBlock: held at the last byte; no answer, then an answer. -/
theorem test_witness_held :
    ({ sender [] with sending := some 9 } : State).sending = some 9 ∧
    ({ sender [] with sending := some 9 } : State).params.legal = true ∧
    9 < ({ sender [] with sending := some 9 } : State).params.frameLen ∧
    (∃ t, step { sender [] with sending := some 9 } = .next t) ∧
    left (step { sender [.ok] with sending := some 9 }) = ([0x00], [0x8], [0x39]) :=
  ⟨rfl, by decide, by decide, ⟨_, rfl⟩, by decide⟩

/-- Eleven of the twelve answers of the next test: a stall, nine bytes taken, a stall. -/
def slowAnswers : List TxAnswer := .stall :: List.replicate 9 .ok ++ [.stall]

/-- StalledSendFinishesWhenAnswered: two stalls, one at the first byte and one at the last. -/
theorem test_witness_stalls_end :
    Awaits { sender (slowAnswers ++ [.ok]) with caller := [.packet [0x08]] } (.packet [0x08]) [] ∧
    (sender (slowAnswers ++ [.ok])).attached = true ∧
    (sender (slowAnswers ++ [.ok])).answers = slowAnswers ++ .ok :: [] ∧
    .fail ∉ slowAnswers ∧ slowAnswers.count .ok + 1 = (sender []).params.frameLen :=
  ⟨⟨by decide, rfl, rfl⟩, rfl, rfl, by decide, by decide⟩

/-- SendFollowsTheBytewisePseudocode: each of the three ends of the stream. -/
theorem test_witness_stream :
    (streamFrame (params 2 1 8) [0x00] (List.replicate 10 .ok)).status = .allTaken ∧
    (streamFrame (params 2 1 8) [0x00] [.ok, .fail]).status = .failed ∧
    (streamFrame (params 2 1 8) [0x00] [.ok, .stall]).status = .stalled ∧
    (streamFrame (params 2 1 8) [0x00] (List.replicate 10 .ok)).crc = 96 ∧
    (sender []).attached = true := by decide

/-- SpeedFactorClampsOnSign, SpeedReadsBackAndScalesDelays: factors on both sides of zero;
CallerMovesActOnAnIdleBlock: a block that waits for each move of the speed unit. -/
theorem test_witness_speed :
    Awaits (caller (.setSpeed (1 / 100))) (.setSpeed (1 / 100)) [] ∧
    Awaits (caller (.setSpeed 0)) (.setSpeed 0) [] ∧ Awaits (caller .getSpeed) .getSpeed [] ∧
    Awaits (caller (.adjustDelay 1)) (.adjustDelay 1) [] ∧
    (0 : Rat) < 1 / 100 ∧ (0 : Rat) ≤ 0 ∧ (-3 : Rat) ≤ 0 ∧ (1 : Rat) < 2 := by
  refine ⟨⟨by decide, rfl, rfl⟩, ⟨by decide, rfl, rfl⟩, ⟨by decide, rfl, rfl⟩,
    ⟨by decide, rfl, rfl⟩, ?_, ?_, ?_, ?_⟩ <;> norm_num

/-- CommandsNeverTouchSpeed, OnlySendEmitsAndFourCommandsCannotFail and
CommandsWriteOnlyWhatTheTableNames: commands that answer a next state. -/
theorem test_witness_commands_run :
    (∃ t, exec (.get 0 0) (display 2 8 .normal [0, 0]) = .next t) ∧
    (∃ t, exec .send (sender [.ok]) = .next t) ∧ Instr.get 0 0 ≠ .send :=
  ⟨⟨_, rfl⟩, ⟨_, rfl⟩, by decide⟩

/-- CallerMovesActOnAnIdleBlock: a block that waits for a reset, for an attach
and for a detach, and an idle one. -/
theorem test_witness_reset_move :
    Awaits (caller .reset) .reset [] ∧ Awaits (caller (.attach true)) (.attach true) [] ∧
    Awaits (caller (.attach false)) (.attach false) [] ∧
    State.reset.params.legal = true ∧ State.reset.sending = none ∧ State.reset.caller = [] :=
  ⟨⟨by decide, rfl, rfl⟩, ⟨by decide, rfl, rfl⟩, ⟨by decide, rfl, rfl⟩, by decide, rfl, rfl⟩

/-- InvariantHoldsAtReset, EveryStepKeepsTheInvariant, InstanceConstantsNeverChange, OutputsOnlyGrow:
a state in the invariant that holds a `SEND` at its last byte, and its step. -/
theorem test_witness_invariant :
    ({ sender [.ok] with sending := some 9 } : State).Inv ∧
    (∃ t, step { sender [.ok] with sending := some 9 } = .next t) ∧
    ({ sender [.ok] with sending := some 9 } : State).buf.length = 1 := by
  refine ⟨⟨by decide, by decide, ?_, ?_⟩, ⟨_, rfl⟩, rfl⟩
  · show (0 : Rat) < 1
    norm_num
  · intro pos h
    cases h
    decide

/-- StepRunsTheDecodedCommand, EveryPacketGetsOneResponse. -/
theorem test_witness_decoded_step :
    Awaits (caller (.packet [0x06])) (.packet [0x06]) [] ∧
    decode (caller (.packet [0x06])).params.xb [0x06] = .ok .toggleOrientation :=
  ⟨⟨by decide, rfl, rfl⟩, by decide⟩

/-- EveryPacketGetsOneResponse: a packet step that leaves a SEND held, at byte 2 and with no response;
and a step of the held SEND that leaves it held. -/
theorem test_witness_packet_held :
    Awaits { sender [.ok, .ok, .stall] with caller := [.packet [0x08]] } (.packet [0x08]) [] ∧
    step { sender [.ok, .ok, .stall] with caller := [.packet [0x08]] } =
      .next { sender [] with tx := [0x02, 0x31], sending := some 2 } ∧
    step { sender [.stall] with tx := [0x02, 0x31], sending := some 2 } =
      .next { sender [] with tx := [0x02, 0x31], sending := some 2 } :=
  ⟨⟨by decide, rfl, rfl⟩, rfl, rfl⟩

/-- PlacedTableWordRunsNext, on a stalled block too. -/
theorem test_witness_placed_word :
    decodeTableWord 40 0x0000000002 = some (.get 0 0) ∧ decodeTableWord 8 0x07 =
      some (.writeText 0 0 []) ∧ State.reset.params.xw = 16 ∧
    (left (step (({ sender [] with sending := some 9 } : State).withFetchWord 8 0x04))).1 = [0xFF] := by
  decide

/-- StepStopsOnlyWhereNoInstanceExists: both sides of every bound, at `XW` = 8 and 16. -/
theorem test_witness_legality :
    (params 0 2 8).legal = false ∧ (params 1 2 8).legal = true ∧ (params 16 2 8).legal = true ∧
    (params 17 2 8).legal = false ∧ (params 2 0 8).legal = false ∧ (params 2 1 8).legal = true ∧
    (params 2 32768 8).legal = true ∧ (params 2 32769 8).legal = false ∧
    (params 2 2 0).legal = false ∧ (params 2 2 1).legal = true ∧
    (params 2 2 32768).legal = true ∧ (params 2 2 32769).legal = false ∧
    ({ params 2 2 8 with xw := 0 } : Params).legal = false ∧
    ({ params 2 2 8 with xw := 8 } : Params).legal = true ∧
    ({ params 2 2 8 with xw := 12 } : Params).legal = false ∧
    ({ params 2 128 121 with xw := 8 } : Params).legal = true ∧
    ({ params 2 129 121 with xw := 8 } : Params).legal = false ∧
    ({ params 2 2 8 with speedInit := 0 } : Params).legal = false ∧ fontless.legal = false := by
  decide

/-- StepStopsOnlyWhereNoInstanceExists: its two outcomes. -/
theorem test_witness_no_instance :
    step (State.construct (params 17 2 8)) = .refused .noInstance ∧
    step (State.construct fontless) = .refused .noInstance ∧
    ∃ t, step (State.construct (params 16 2 8)) = .next t := ⟨rfl, rfl, _, rfl⟩

end Sys2Proof.Tests
end

/-! The reset state and the constants of the instance (10_state.md R25, R34, R35). -/

namespace Sys2Proof.Machine

theorem ofInit_eq_flipped_iff (flippedAtReset : Bool) :
    Orientation.ofInit flippedAtReset = .flipped ↔ flippedAtReset = true := by
  cases flippedAtReset <;> simp [Orientation.ofInit]

theorem wordAt_construct (p : Params) (c : Nat) : wordAt (State.construct p).buf c = 0 := by
  simp [State.construct, wordAt_replicate]

@[simp] theorem resumeSend_params (pos : Nat) (s : State) :
    (resumeSend pos s).params = s.params := by
  rcases resumeSend_cases pos s with ⟨_, h⟩ | ⟨_, _, -, h⟩ | ⟨_, _, -, h⟩ <;> rw [h] <;> rfl

/-- No command writes a parameter (10_state.md R35). -/
theorem exec_params {i : Instr} {s t : State} (h : exec i s = .next t) : t.params = s.params := by
  rcases exec_cases i s with ⟨-, u, ret, cause, he, hu⟩ | ⟨-, -, he⟩ | ⟨-, -, he⟩ <;>
    obtain rfl := Host.Outcome.next.inj (he.symm.trans h)
  · rw [respond_params, hu]
  · rw [respond_params]
  · rw [resumeSend_params]

/-- No step writes a parameter: every case is `exec`, a resumed `SEND`, or an update of other
fields (10_state.md R35). -/
theorem step_params {s t : State} (h : step s = .next t) : t.params = s.params := by
  obtain ⟨-, ⟨pos, -, rfl⟩ | ⟨-, -, rfl⟩ | ⟨_, _, _, -, -, -, rfl⟩ | ⟨_, moves, i, -, -, -, he⟩ |
    ⟨_, _, -, -, rfl⟩ | ⟨_, -, -, rfl⟩ | ⟨_, _, -, -, rfl⟩ | ⟨_, -, -, rfl⟩ | ⟨_, _, -, -, rfl⟩⟩ :=
    step_cases h
  · exact resumeSend_params pos s
  · rfl
  · exact respond_params _ _ _
  · exact exec_params (s := { s with caller := moves }) he
  all_goals rfl

/-- Settles O45: construction and `resetBlock` write the same values, read off field by field, and
`step_params` keeps the constants. -/
theorem resetLeavesTheSpecValues : Obligations.ResetLeavesTheSpecValues := by
  refine ⟨fun p => ⟨rfl, ?length, ?words, ?orient, rfl⟩, fun s => ⟨rfl, rfl, rfl, rfl⟩, rfl, rfl,
    fun _ _ => step_params⟩
  case length => exact List.length_replicate
  case words => exact fun c _ => wordAt_construct p c
  case orient => exact ofInit_eq_flipped_iff p.orientInit

end Sys2Proof.Machine

/-! The coordinate mapper and the placement of the dots in the payload (20_memory.md R42, R43, R47;
43_send_frame.md R121). -/

namespace Sys2Proof.Machine

/-- `Map` on a point whose transform is known (20_memory.md R43). -/
theorem mapDot_of_orientPoint {s : State} {col row col' row' : Int}
    (h : orientPoint s.params s.orient col row = (col', row')) :
    mapDot s col row =
      if 0 ≤ col' ∧ col' < s.params.columns ∧ 0 ≤ row' ∧ row' < s.params.rows then
        some (col'.toNat, row'.toNat)
      else none := by
  rw [mapDot, h, boundsCheck]

/-- The transform of each orientation determines the transformed point (20_memory.md R42). -/
theorem orientPoint_eq {p : Params} {o : Orientation} {col row col' row' : Int}
    (hf : o = .flipped → col' = p.columns - 1 - col ∧ row' = p.rows - 1 - row)
    (hn : o = .normal → col' = col ∧ row' = row) :
    orientPoint p o col row = (col', row') := by
  cases o with
  | normal => obtain ⟨rfl, rfl⟩ := hn rfl; rfl
  | flipped => obtain ⟨rfl, rfl⟩ := hf rfl; rfl

/-- Settles O8: the transformed point is the one the orientation determines, and the mapper is its
bounds check; 5 rows are rounded up to 8, so flipping takes row 0 to row 7. -/
theorem mapperTransformsThenChecksBounds : Obligations.MapperTransformsThenChecksBounds := by
  refine ⟨fun s col row col' row' hf hn => ?_, fun s col hreq ho h0 hlt => ?_⟩
  · rw [mapDot_of_orientPoint (orientPoint_eq hf hn)]
    exact ⟨fun h => if_pos h, fun h => if_neg h⟩
  · have hrows : s.params.rows = 8 := by rw [Params.rows, hreq]
    refine ⟨(s.params.columns - 1 - col).toNat, (mapDot_eq_some_iff _ _ _ _ _).mpr ?_⟩
    rw [ho, hrows]
    refine ⟨?_, ?_, ?_, ?_⟩ <;> omega

/-- Dropping `n` whole pieces of a list built from pieces of one length. -/
theorem drop_flatMap_const {α β : Type} {f : α → List β} {k : Nat} (h : ∀ a, (f a).length = k)
    (l : List α) (n : Nat) : (l.flatMap f).drop (n * k) = (l.drop n).flatMap f := by
  induction l generalizing n with
  | nil => simp
  | cons a l ih =>
    cases n with
    | zero => simp
    | succ n =>
      have hk : (n + 1) * k = (f a).length + n * k := by rw [h]; ring
      rw [List.flatMap_cons, hk, List.drop_length_add_append, List.drop_succ_cons, ih]

/-- The text from piece `i` on begins with piece `i`. -/
theorem drop_flatMap_range {β : Type} {f : Nat → List β} {k : Nat} (h : ∀ a, (f a).length = k)
    {n i : Nat} (hi : i < n) :
    ∃ rest, ((List.range n).flatMap f).drop (i * k) = f i ++ rest := by
  refine ⟨((List.range n).drop (i + 1)).flatMap f, ?_⟩
  rw [drop_flatMap_const h, List.drop_eq_getElem_cons (by simpa using hi), List.flatMap_cons,
    List.getElem_range]

/-- The hex pair of byte `i` of column `c` stands at data position `c * BPC + i`
(43_send_frame.md R121). -/
theorem payload_hexPair (p : Params) (buf : List ColumnWord) {c i : Nat} (hc : c < p.columns)
    (hi : i < p.bpc) :
    ((payload p buf).drop (2 * (c * p.bpc + i))).take 2 = hex2 (wordByte (wordAt buf c) i) := by
  obtain ⟨columnsAfter, hcol⟩ :=
    drop_flatMap_range (fun c => columnText_length p (wordAt buf c)) hc
  obtain ⟨bytesAfter, hbyte⟩ :=
    drop_flatMap_range (fun i => hex2_length (wordByte (wordAt buf c) i)) hi
  have hpos : 2 * (c * p.bpc + i) = c * (2 * p.bpc) + i * 2 := by ring
  rw [hpos, ← List.drop_drop, payload, hcol,
    List.drop_append_of_le_length (by rw [columnText_length]; omega), columnText, hbyte,
    List.append_assoc]
  exact List.take_left' (hex2_length _)

/-- Bit `j` of byte `i` of a column word is the word's bit `8 * i + j` (20_memory.md R47). -/
theorem testBit_wordByte (w : ColumnWord) (i : Nat) {j : Nat} (hj : j < 8) :
    (wordByte w i).testBit j = w.testBit (8 * i + j) := by
  have hmask : (0xFF : Nat).testBit j = true := by
    rw [show 0xFF = 2 ^ 8 - 1 from rfl, Nat.testBit_two_pow_sub_one]
    exact decide_eq_true hj
  rw [wordByte, Nat.testBit_and, Nat.testBit_shiftRight, hmask, Bool.and_true]

/-- A row of the panel lies in one of the `BPC` bytes of its column (00_scope.md R9). -/
theorem row_div_lt_bpc {p : Params} {r : Nat} (hr : r < p.rows) : r / 8 < p.bpc := by
  rw [Params.rows] at hr
  rw [Params.bpc, Params.rows]
  omega

/-- Settles O28: the pair at each position is that of its byte (`payload_hexPair`), and row `r`
is bit `r mod 8` of byte `r div 8` (`testBit_wordByte`). -/
theorem payloadPlacesEveryDot : Obligations.PayloadPlacesEveryDot := by
  refine fun p buf => ⟨payload_length p buf, fun c i hc hi => payload_hexPair p buf hc hi,
    fun c r hc hr => ⟨wordByte (wordAt buf c) (r / 8), wordByte_lt _ _,
      payload_hexPair p buf hc (row_div_lt_bpc hr), ?_⟩⟩
  rw [testBit_wordByte _ _ (Nat.mod_lt r (by omega)), Nat.div_add_mod]

end Sys2Proof.Machine

/-! Reading a dot back after it was written (40_dot_ops.md R84): what it takes for a dot to hold a
value, and that commands which spare the dot keep it. -/

namespace Sys2Proof.Machine

/-- GET of logical `(col,row)` would answer `value`, and the buffer has its `COLUMNS` words. -/
def HoldsDot (col row : Int) (value : Bool) (s : State) : Prop :=
  s.buf.length = s.params.columns ∧ readDot s col row = some value

@[simp] theorem mapDot_writeWord (s : State) (c : Nat) (v : ColumnWord) (col row : Int) :
    mapDot (writeWord s c v) col row = mapDot s col row := rfl

theorem readDot_of_mapDot {s : State} {col row : Int} {c r : Nat}
    (h : mapDot s col row = some (c, r)) : readDot s col row = some (s.dot c r) := by
  rw [readDot, h]

/-- What holds a dot is the parameters, the orientation and the buffer. -/
theorem HoldsDot.congr {s t : State} {col row : Int} {value : Bool}
    (h : HoldsDot col row value s) (hp : t.params = s.params) (ho : t.orient = s.orient)
    (hb : t.buf = s.buf) : HoldsDot col row value t := by
  simpa only [HoldsDot, readDot, State.dot, mapDot_congr hp ho, hp, hb] using h

theorem HoldsDot.of_respond {s : State} {col row : Int} {value : Bool}
    (h : HoldsDot col row value s) (ret : Bool) (cause : Cause) :
    HoldsDot col row value (respond ret cause s) :=
  h.congr rfl rfl rfl

theorem HoldsDot.of_resumeSend {s : State} {col row : Int} {value : Bool}
    (h : HoldsDot col row value s) (pos : Nat) : HoldsDot col row value (resumeSend pos s) := by
  rcases resumeSend_cases pos s with ⟨_, ht⟩ | ⟨_, _, -, ht⟩ | ⟨_, _, -, ht⟩ <;> rw [ht]
  all_goals exact h.congr rfl rfl rfl

/-- A write of one bit at another coordinate reaches another dot, since the mapper is injective
(20_memory.md R44 (b)). -/
theorem readDot_writeWord_of_ne {s : State} {col row col' row' : Int} {c r : Nat} {v : ColumnWord}
    (hc : c < s.buf.length) (hm : mapDot s col' row' = some (c, r))
    (hv : ∀ r', r' ≠ r → v.testBit r' = (wordAt s.buf c).testBit r')
    (hne : ¬ (col' = col ∧ row' = row)) :
    readDot (writeWord s c v) col row = readDot s col row := by
  simp only [readDot, mapDot_writeWord]
  cases hm' : mapDot s col row with
  | none => rfl
  | some cr =>
    obtain ⟨c', r'⟩ := cr
    have hother : ¬ (c' = c ∧ r' = r) := by
      rintro ⟨rfl, rfl⟩
      exact hne (mapDot_inj hm hm')
    simp only [dot_writeWord hc]
    split
    case isTrue h => rw [hv r' fun hr => hother ⟨h, hr⟩, h, State.dot]
    case isFalse => rfl

/-- A dot mutation through `f`, which changes one bit of a word, keeps the dot at every other
coordinate. -/
theorem HoldsDot.of_answerMutation {s : State} {col row col' row' : Int} {value : Bool}
    {f : ColumnWord → Nat → ColumnWord} (h : HoldsDot col row value s)
    (hf : ∀ w r r', r' ≠ r → (f w r).testBit r' = w.testBit r')
    (hne : ¬ (col' = col ∧ row' = row)) :
    HoldsDot col row value (answerMutation s (modifyDot s col' row' f)) := by
  rcases answerMutation_modifyDot s col' row' f with ⟨-, ht⟩ | ⟨c, r, hm, ht⟩ <;> rw [ht]
  · exact h.of_respond _ _
  · obtain ⟨hlen, hread⟩ := h
    have hc : c < s.buf.length := hlen ▸ (mapDot_bounds hm).1
    refine HoldsDot.of_respond ⟨by simpa using hlen, ?_⟩ _ _
    rw [readDot_writeWord_of_ne hc hm (hf _ r) hne, hread]

/-- An in-range SET makes its dot hold the operand (40_dot_ops.md R81). -/
theorem exec_set_holdsDot {s : State} {col row : Int} (hlen : s.buf.length = s.params.columns)
    (hr : inRange s.params col row) (state : Bool) :
    ∃ t, exec (.set col row state) s = .next t ∧ HoldsDot col row state t := by
  obtain ⟨c, r, hm⟩ := mapDot_of_inRange hr
  have hc : c < s.buf.length := hlen ▸ (mapDot_bounds hm).1
  refine ⟨_, rfl, ?_⟩
  rw [setDot, modifyDot, hm]
  refine HoldsDot.of_respond ⟨by simpa using hlen, ?_⟩ _ _
  rw [readDot_of_mapDot ((mapDot_writeWord ..).trans hm), dot_setWrite hc, if_pos ⟨rfl, rfl⟩]

/-- GET answers the value held with cause 0 (40_dot_ops.md R82). -/
theorem HoldsDot.exec_get {s : State} {col row : Int} {value : Bool}
    (h : HoldsDot col row value s) : exec (.get col row) s = .next (respond value .none s) := by
  simp only [exec, execGet, h.2]

/-- A command that spares a dot completes and leaves the dot holding its value. -/
theorem HoldsDot.exec_of_sparesDot {s : State} {col row : Int} {value : Bool} {i : Instr}
    (h : HoldsDot col row value s) (hi : sparesDot col row i) :
    ∃ t, exec i s = .next t ∧ HoldsDot col row value t := by
  cases i with
  | set col' row' state =>
    refine ⟨_, rfl, h.of_answerMutation (fun w r r' hr => ?_) hi⟩
    cases state <;> simp [hr.symm]
  | get col' row' =>
    simp only [exec, execGet]
    cases readDot s col' row' with
    | none => exact ⟨_, rfl, h.of_respond _ _⟩
    | some _ => exact ⟨_, rfl, h.of_respond _ _⟩
  | invert col' row' => exact ⟨_, rfl, h.of_answerMutation (fun w r r' hr => by simp [hr.symm]) hi⟩
  | send =>
    simp only [exec, execSend]
    split
    · exact ⟨_, rfl, h.of_resumeSend 0⟩
    · exact ⟨_, rfl, h.of_respond _ _⟩
  | fillAll | eraseAll | toggleOrientation | writeText => exact hi.elim

/-- What each command of a list completes with and keeps, the whole list completes with and keeps. -/
theorem execAll_of_forall_exec {P : State → Prop} {commands : List Instr}
    (hexec : ∀ i ∈ commands, ∀ s, P s → ∃ t, exec i s = .next t ∧ P t) {s : State} (hs : P s) :
    ∃ t, execAll commands s = .next t ∧ P t := by
  induction commands generalizing s with
  | nil => exact ⟨s, rfl, hs⟩
  | cons i commands ih =>
    obtain ⟨u, hu, hPu⟩ := hexec i List.mem_cons_self s hs
    obtain ⟨t, ht, hPt⟩ := ih (fun j hj => hexec j (List.mem_cons_of_mem i hj)) hPu
    exact ⟨t, by rw [execAll, hu]; exact ht, hPt⟩

theorem getLsbD_response (ret : Bool) (cause : Cause) : (response ret cause).getLsbD 3 = ret := by
  cases ret <;> cases cause <;> rfl

/-- Settles O14: SET makes the dot hold the value, every command between keeps it, and GET answers
what the dot holds. -/
theorem readAfterWriteAcrossOtherCommands : Obligations.ReadAfterWriteAcrossOtherCommands := by
  intro s col row state between hlen hr hspares
  obtain ⟨u, hset, hu⟩ := exec_set_holdsDot hlen hr state
  obtain ⟨t, hall, ht⟩ :=
    execAll_of_forall_exec (fun i hi s (hs : HoldsDot col row state s) =>
      hs.exec_of_sparesDot (hspares i hi)) hu
  exact ⟨t, respond state .none t, response state .none, by rw [execAll, hset]; exact hall,
    ht.exec_get, rfl, getLsbD_response state .none⟩

end Sys2Proof.Machine

/-! What WRITE_TEXT leaves in the buffer: the dots of its text and no other (42_write_text.md R104,
R105, R110). -/

namespace Sys2Proof.Machine

theorem textLights_congr {s t : State} (hp : t.params = s.params) (ho : t.orient = s.orient)
    (col row : Int) (text : List Byte) (c r : Nat) :
    textLights t col row text c r ↔ textLights s col row text c r := by
  simp only [textLights, charLights_congr hp ho]

theorem not_textLights_nil (s : State) (col row : Int) (c r : Nat) :
    ¬ textLights s col row [] c r := by
  simp [textLights]

/-- A one-character text lights the dots of that character in the first cell. -/
theorem textLights_singleton (s : State) (col row : Int) (ch : Byte) (c r : Nat) :
    textLights s col row [ch] c r ↔ charLights s col row ch c r := by
  rw [textLights_cons, or_iff_left (not_textLights_nil s _ row c r)]

/-- WRITE_TEXT draws on an erased buffer, so the lit dots after it are those of the text
(42_write_text.md R104, R105). -/
theorem exec_writeText_dots (s : State) (col row : Int) (text : List Byte) :
    ∃ t, exec (.writeText col row text) s = .next t ∧ t.buf.length = s.params.columns ∧
      ∀ c r, t.dot c r = true ↔ textLights s col row text c r := by
  obtain ⟨-, hlen, hdot⟩ := drawText_lights (s := writeAllWords s 0) (by simp) row col text
  refine ⟨_, rfl, by simpa using hlen, fun c r => ?_⟩
  rw [dot_respond, hdot, dot_writeAllWords, textLights_congr (t := writeAllWords s 0) (s := s) rfl rfl]
  simp

/-- WRITE_TEXT overwrites the old buffer before it reads it (42_write_text.md R105). -/
theorem exec_writeText_withBuf (s : State) (col row : Int) (text : List Byte)
    (buf : List ColumnWord) :
    exec (.writeText col row text) { s with buf := buf } = exec (.writeText col row text) s := rfl

/-- A text that lights no dot leaves the erased buffer. -/
theorem exec_writeText_blank {s : State} {col row : Int} {text : List Byte}
    (h : ∀ c r, ¬ textLights s col row text c r) :
    ∃ t, exec (.writeText col row text) s = .next t ∧
      t.buf = List.replicate s.params.columns 0 := by
  obtain ⟨t, he, hlen, hdot⟩ := exec_writeText_dots s col row text
  refine ⟨t, he, buf_ext (by simpa using hlen) fun c r => ?_⟩
  have hdark : t.dot c r = false := Bool.eq_false_iff.mpr fun hlit => h c r ((hdot c r).mp hlit)
  rw [State.dot] at hdark
  simp [hdark, wordAt_replicate]

theorem not_textLights_of_unsupported {s : State} {text : List Byte}
    (h : ∀ ch ∈ text, s.params.font.glyph ch = none) (col row : Int) (c r : Nat) :
    ¬ textLights s col row text c r := by
  rintro ⟨n, ch, hn, g, hg, -⟩
  rw [h ch (List.mem_of_getElem? hn)] at hg
  cases hg

theorem not_textLights_of_offPanel {s : State} {col row : Int} {text : List Byte}
    (h : ∀ n i k : Nat, n < text.length → i < 5 → k < 7 →
      ¬ inRange s.params (col + 6 * n + i) (row + k)) (c r : Nat) :
    ¬ textLights s col row text c r := by
  rintro ⟨n, ch, hn, g, -, i, k, hi, hk, -, hm⟩
  obtain ⟨hlt, -⟩ := List.getElem?_eq_some_iff.mp hn
  rw [(mapDot_eq_none_iff s _ _).mpr (h n i k hlt hi hk)] at hm
  cases hm

/-- Settles O25: the erase overwrites the old buffer, and a text of each of the three kinds lights
no dot of the erased one. -/
theorem writeTextAlwaysErasesFirst : Obligations.WriteTextAlwaysErasesFirst := by
  refine fun s col row text => ⟨exec_writeText_withBuf s col row text, fun h => ?_⟩
  apply exec_writeText_blank
  rcases h with rfl | hunsupported | hoff
  · exact not_textLights_nil s col row
  · exact not_textLights_of_unsupported hunsupported col row
  · exact not_textLights_of_offPanel hoff

theorem Glyph.column_eq_zero (g : Glyph) {i : Nat} (h : 5 ≤ i) : g.column i = 0 := by
  obtain ⟨n, rfl⟩ := Nat.exists_eq_add_of_le' h
  rfl

/-- A glyph has 5 columns of 7 bits: a set bit lies in it (42_write_text.md R100). -/
theorem Glyph.bounds_of_getLsbD {g : Glyph} {i k : Nat} (h : (g.column i).getLsbD k = true) :
    i < 5 ∧ k < 7 := by
  refine ⟨?_, BitVec.lt_of_getLsbD h⟩
  by_contra hi
  rw [Glyph.column_eq_zero g (not_lt.mp hi)] at h
  simp at h

/-- A character at the origin of a panel that holds its whole cell, in normal orientation: dot
`(c,r)` is bit `r` of glyph column `c` (42_write_text.md R104, R110). -/
theorem charLights_origin_iff {s : State} {ch : Byte} {g : Glyph} (ho : s.orient = .normal)
    (hcols : 5 ≤ s.params.columns) (hrows : 7 ≤ s.params.rows)
    (hg : s.params.font.glyph ch = some g) (c r : Nat) :
    charLights s 0 0 ch c r ↔ (g.column c).getLsbD r = true := by
  constructor
  · rintro ⟨g', hg', i, k, -, -, hbit, hm⟩
    obtain rfl := Option.some.inj (hg.symm.trans hg')
    obtain ⟨-, -, hpoint⟩ := (mapDot_eq_some_iff s _ _ c r).mp hm
    rw [ho] at hpoint
    obtain ⟨hi, hk⟩ := hpoint
    obtain rfl : i = c := by omega
    obtain rfl : k = r := by omega
    exact hbit
  · intro hbit
    obtain ⟨hc, hr⟩ := Glyph.bounds_of_getLsbD hbit
    refine ⟨g, hg, c, r, hc, hr, hbit, (mapDot_eq_some_iff s _ _ c r).mpr ?_⟩
    rw [ho]
    refine ⟨?_, ?_, ?_, ?_⟩ <;> omega

/-- Settles O23: bit by bit, word `c` is glyph column `c`, which is 0 from column 5 on. -/
theorem writeTextOfAFillsTheFirstFiveColumns :
    Obligations.WriteTextOfAFillsTheFirstFiveColumns := by
  intro s g ho hrows hcols hg
  obtain ⟨t, he, -, hdot⟩ := exec_writeText_dots s 0 0 [0x41]
  have hword : ∀ c, wordAt t.buf c = (g.column c).toNat := fun c =>
    Nat.eq_of_testBit_eq fun r => by
      rw [BitVec.testBit_toNat, Bool.eq_iff_iff, ← charLights_origin_iff ho hcols (by omega) hg,
        ← textLights_singleton, ← hdot, State.dot]
  refine ⟨t, he, fun i _ => ⟨hword i, ?_⟩, fun c hc => ?_⟩
  · rw [hword]
    exact (g.column i).isLt
  · rw [hword, Glyph.column_eq_zero g hc]
    rfl

end Sys2Proof.Machine

/-! The frame as text: its digits, its header, its checksum and its layout (43_send_frame.md R116 to
R127, R133). -/

namespace Sys2Proof.Machine

/-- One of the sixteen digits (43_send_frame.md R116). -/
def IsHexDigit (x : Byte) : Prop := ∃ n, n < 16 ∧ x = hexDigit n

theorem isHexDigit_of_mem_hex2 {b : Nat} (h : b < 256) {x : Byte} (hx : x ∈ hex2 b) :
    IsHexDigit x := by
  simp only [hex2, List.mem_cons, List.not_mem_nil, or_false] at hx
  rcases hx with hhigh | hlow
  · exact ⟨b / 16, by omega, hhigh⟩
  · exact ⟨b % 16, by omega, hlow⟩

/-- No digit is a control byte, as STX and ETX are (43_send_frame.md R127). -/
theorem IsHexDigit.le_toNat {x : Byte} (h : IsHexDigit x) : 0x30 ≤ x.toNat := by
  obtain ⟨n, hn, rfl⟩ := h
  rcases hexDigit_range hn with ⟨h, -⟩ | ⟨h, -⟩ <;> omega

theorem byteSum_hex2 (b : Nat) :
    byteSum (hex2 b) = (hexDigit (b / 16)).toNat + (hexDigit (b % 16)).toNat := by
  simp [hex2]

theorem byteSum_hex2_bounds {b : Nat} (h : b < 256) :
    96 ≤ byteSum (hex2 b) ∧ byteSum (hex2 b) ≤ 140 := by
  have hhigh := hexDigit_range (n := b / 16) (by omega)
  have hlow := hexDigit_range (n := b % 16) (by omega)
  rw [byteSum_hex2]
  omega

/-- Settles O26: the formulas are the two branches of `hexDigit`, and the bounds on a pair come from
those on its digits. -/
theorem hexPairsFollowTheDigitTable : Obligations.HexPairsFollowTheDigitTable := by
  refine ⟨by decide, fun n => ⟨fun h => if_pos h, fun h _ => if_neg (by omega)⟩, fun b hb =>
    ⟨rfl, fun x hx => mem_hex2_range hb hx, byteSum_hex2_bounds hb⟩, by decide⟩

/-- After STX and the wire address the header is the size field (43_send_frame.md R120). -/
theorem header_drop (p : Params) : (header p).drop 3 = hex2 (p.dataSize &&& 0xFF) := rfl

theorem payloadLen_eq (p : Params) : p.payloadLen = 2 * p.dataSize := by
  rw [Params.payloadLen, dataSize_eq, Nat.mul_assoc]

/-- Settles O27: the size field is read off `header_drop`, the payload's length is not truncated,
and no step writes the parameters the header is made of. -/
theorem headerCarriesAddressAndSize : Obligations.HeaderCarriesAddressAndSize := by
  refine ⟨fun p => ⟨rfl, dataSize_eq p, rfl⟩, by decide, fun p => ⟨?_, ?_, ?_⟩, fun p buf => ?_,
    fun s t h => congrArg header (step_params h), by decide⟩
  · intro h; rw [header_drop, h]; rfl
  · intro h; rw [header_drop, h]; rfl
  · intro h; rw [header_drop, h]; rfl
  · rw [payload_length, payloadLen_eq]

theorem byteSum_flatMap_const {α : Type} {l : List α} {f : α → List Byte} {k : Nat}
    (h : ∀ a ∈ l, byteSum (f a) = k) : byteSum (l.flatMap f) = l.length * k := by
  induction l with
  | nil => simp
  | cons a l ih =>
    rw [List.flatMap_cons, byteSum_append, h a List.mem_cons_self,
      ih fun b hb => h b (List.mem_cons_of_mem a hb), List.length_cons]
    ring

/-- Where every data byte has the same hex sum, `crc` is that sum times `DATA_SIZE`
(43_send_frame.md R122). -/
theorem byteSum_payload_replicate {p : Params} {w : ColumnWord} {k : Nat}
    (h : ∀ i < p.bpc, byteSum (hex2 (wordByte w i)) = k) :
    byteSum (payload p (List.replicate p.columns w)) = k * p.dataSize := by
  have hcolumn : byteSum (columnText p w) = p.bpc * k := by
    rw [columnText, byteSum_flatMap_const fun i hi => h i (List.mem_range.mp hi), List.length_range]
  have hword : ∀ c ∈ List.range p.columns,
      byteSum (columnText p (wordAt (List.replicate p.columns w) c)) = p.bpc * k := fun c hc => by
    rw [wordAt_replicate, if_pos (List.mem_range.mp hc), hcolumn]
  rw [payload, byteSum_flatMap_const hword, List.length_range, dataSize_eq]
  ring

@[simp] theorem wordByte_zero (i : Nat) : wordByte 0 i = 0 := by simp [wordByte]

/-- Every byte of a lit column is 0xFF: its bits are rows of the panel (41_bulk_ops.md R91). -/
theorem wordByte_litWord {p : Params} {i : Nat} (hi : i < p.bpc) :
    wordByte (litWord p) i = 0xFF := by
  have hrows : 8 * i + 8 ≤ p.rows := by rw [Params.bpc] at hi; omega
  refine Nat.eq_of_testBit_eq fun j => ?_
  rw [show 0xFF = 2 ^ 8 - 1 from rfl, Nat.testBit_two_pow_sub_one]
  by_cases hj : j < 8
  · rw [testBit_wordByte _ _ hj, testBit_litWord, decide_eq_decide]
    omega
  · have hlt : wordByte (litWord p) i < 2 ^ j :=
      (wordByte_lt _ _).trans_le (Nat.pow_le_pow_right (n := 2) (by omega) (not_lt.mp hj))
    rw [Nat.testBit_lt_two_pow hlt, decide_eq_false hj]

/-- Settles O29: the equations are the definition of the frame, and each byte of a dark buffer adds
the sum of `00`, each of a lit one that of `FF`. -/
theorem checksumCoversHeaderAndPayloadText : Obligations.ChecksumCoversHeaderAndPayloadText := by
  refine ⟨?equations, fun p => ⟨?dark, ?lit⟩⟩
  case equations =>
    rintro p buf crc sum chk rfl rfl rfl
    refine ⟨rfl, ?_⟩
    rw [List.append_assoc _ [0x03]]
    rfl
  case dark =>
    refine byteSum_payload_replicate fun i _ => ?_
    rw [wordByte_zero]
    rfl
  case lit =>
    rw [← Nat.one_shiftLeft]
    refine byteSum_payload_replicate fun i hi => ?_
    rw [← litWord, wordByte_litWord hi]
    rfl

theorem isHexDigit_of_mem_payload {p : Params} {buf : List ColumnWord} {x : Byte}
    (hx : x ∈ payload p buf) : IsHexDigit x := by
  obtain ⟨c, -, hc⟩ := List.mem_flatMap.mp hx
  obtain ⟨i, -, hi⟩ := List.mem_flatMap.mp hc
  exact isHexDigit_of_mem_hex2 (wordByte_lt _ i) hi

/-- The wire address fits one byte (00_scope.md R7). -/
theorem wire_lt {p : Params} (h : p.legal = true) : p.wire < 256 := by
  simp only [Params.legal, Bool.and_eq_true, decide_eq_true_eq] at h
  rw [Params.wire]
  omega

/-- What stands between STX and ETX. -/
def frameText (p : Params) (buf : List ColumnWord) : List Byte :=
  hex2 p.wire ++ hex2 (p.dataSize &&& 0xFF) ++ payload p buf

theorem frame_eq (p : Params) (buf : List ColumnWord) :
    frame p buf = stx :: (frameText p buf ++
      etx :: hex2 (finalChecksum p (byteSum (payload p buf)))) := by
  simp [frame, header, footer, frameText]

@[simp] theorem frameText_length (p : Params) (buf : List ColumnWord) :
    (frameText p buf).length = 4 + p.payloadLen := by
  simp [frameText, ← Nat.add_assoc]

theorem isHexDigit_of_mem_frameText {p : Params} {buf : List ColumnWord} (hl : p.legal = true)
    {x : Byte} (hx : x ∈ frameText p buf) : IsHexDigit x := by
  simp only [frameText, List.mem_append] at hx
  rcases hx with (haddr | hsize) | hpay
  · exact isHexDigit_of_mem_hex2 (wire_lt hl) haddr
  · exact isHexDigit_of_mem_hex2 (land_255 p.dataSize ▸ Nat.mod_lt _ (by omega)) hsize
  · exact isHexDigit_of_mem_payload hpay

/-- A byte that is no digit occurs in no text of digits. -/
theorem count_eq_zero_of_isHexDigit {text : List Byte} (h : ∀ x ∈ text, IsHexDigit x) {b : Byte}
    (hb : b.toNat < 0x30) : text.count b = 0 :=
  List.count_eq_zero.mpr fun hmem => absurd (h b hmem).le_toNat (by omega)

/-- What stands at another position than a list's middle element is in one of the two sides. -/
theorem mem_of_getElem?_of_ne_length {α : Type} {l r : List α} {a x : α} {j : Nat}
    (hj : j ≠ l.length) (h : (l ++ a :: r)[j]? = some x) : x ∈ l ∨ x ∈ r := by
  rcases lt_or_gt_of_ne hj with hlt | hgt
  · rw [List.getElem?_append_left hlt] at h
    exact .inl (List.mem_of_getElem? h)
  · obtain ⟨k, hk⟩ : ∃ k, j - l.length = k + 1 := ⟨j - l.length - 1, by omega⟩
    rw [List.getElem?_append_right hgt.le, hk, List.getElem?_cons_succ] at h
    exact .inr (List.mem_of_getElem? h)

/-- Settles O32: the text between STX and ETX and the pair after ETX hold digits only, and no digit
is STX or ETX. -/
theorem frameHasFixedLayout : Obligations.FrameHasFixedLayout := by
  intro p buf hl
  have hchk := finalChecksum_lt p (byteSum (payload p buf))
  have htext : ∀ x ∈ frameText p buf, IsHexDigit x := fun x => isHexDigit_of_mem_frameText hl
  have hpair : ∀ x ∈ hex2 (finalChecksum p (byteSum (payload p buf))), IsHexDigit x :=
    fun x => isHexDigit_of_mem_hex2 hchk
  refine ⟨⟨_, hchk, rfl, rfl⟩, frame_length p buf, rfl, ?etx, ?digits, ?stxCount, ?etxCount⟩
  case etx =>
    have hpos : 5 + p.payloadLen = (frameText p buf).length + 1 := by rw [frameText_length]; omega
    rw [frame_eq, hpos, List.getElem?_cons_succ, List.getElem?_append_right le_rfl, Nat.sub_self]
    rfl
  case digits =>
    intro j b h0 hetx hb
    obtain ⟨k, rfl⟩ := Nat.exists_eq_succ_of_ne_zero h0
    rw [frame_eq, List.getElem?_cons_succ] at hb
    rcases mem_of_getElem?_of_ne_length (by rw [frameText_length]; omega) hb with hmem | hmem
    · exact htext b hmem
    · exact hpair b hmem
  case stxCount | etxCount =>
    simp [frame_eq, stx, etx, count_eq_zero_of_isHexDigit htext, count_eq_zero_of_isHexDigit hpair]

/-- Settles O33: the buffer is one data byte, and the source's values follow one from another. -/
theorem workedScenarioFrame : Obligations.WorkedScenarioFrame := by
  intro p hcols hreq haddr
  have hrows : p.rows = 8 := by rw [Params.rows, hreq]
  have hbpc : p.bpc = 1 := by rw [Params.bpc, hrows]
  have hwire : p.wire = 18 := by rw [Params.wire, haddr]
  have hsize : p.dataSize = 1 := by rw [dataSize_eq, hcols, hbpc]
  have hheader : header p = [0x02, 0x31, 0x32, 0x30, 0x31] := by rw [header, hwire, hsize]; rfl
  have hpayload : payload p [0] = [0x30, 0x30] := by
    rw [payload, hcols]
    simp only [columnText, hbpc]
    rfl
  have hsum : checkSum p 96 = 39 := by rw [checkSum, hheader]; rfl
  have hchk : finalChecksum p 96 = 217 := by rw [finalChecksum, hsum]; rfl
  have hcrc : byteSum (payload p [0]) = 96 := by rw [hpayload]; rfl
  have hframe : frame p [0] = [0x02, 0x31, 0x32, 0x30, 0x31, 0x30, 0x30, 0x03, 0x44, 0x39] := by
    rw [frame, hcrc, footer, hchk, hheader, hpayload]; rfl
  exact ⟨hwire, by rw [hwire]; rfl, hsize, by rw [hsize]; rfl, hheader, by rw [hheader]; rfl,
    hpayload, hcrc, hsum, hchk, rfl, hframe⟩

end Sys2Proof.Machine

/-! What a frame and the bytes of a SEND depend on (43_send_frame.md R115). -/

namespace Sys2Proof.Machine

section
variable {p q : Params} (ha : p.addr = q.addr) (hc : p.columns = q.columns) (hr : p.rows = q.rows)
include hc hr

theorem payload_congr (buf : List ColumnWord) : payload p buf = payload q buf := by
  simp only [payload, columnText, Params.bpc, hc, hr]

include ha

theorem header_congr : header p = header q := by
  simp only [header, Params.wire, Params.dataSize, ha, hc, hr]

/-- A frame is a function of `ADDR`, `COLUMNS`, `ROWS` and `BUF` (43_send_frame.md R115). -/
theorem frame_congr (buf : List ColumnWord) : frame p buf = frame q buf := by
  simp only [frame, footer, finalChecksum, checkSum, header_congr ha hc hr, payload_congr hc hr]

end

/-- A resumed SEND puts on the wire what the transport takes of the frame's bytes left. -/
theorem resumeSend_tx (pos : Nat) (s : State) :
    (resumeSend pos s).tx =
      s.tx ++ (transmit ((frame s.params s.buf).drop pos) s.answers).sent := by
  simp only [resumeSend]
  split <;> rfl

/-- What a SEND puts on the wire: the bytes of the frame an attached transport takes. -/
def sendBytes (s : State) : List Byte :=
  if s.attached then (transmit (frame s.params s.buf) s.answers).sent else []

theorem exec_send_tx (s : State) : ∃ t, exec .send s = .next t ∧ t.tx = s.tx ++ sendBytes s := by
  rw [sendBytes]
  rcases exec_cases .send s with ⟨hne, -⟩ | ⟨-, hatt, he⟩ | ⟨-, hatt, he⟩
  · exact absurd rfl hne
  · exact ⟨_, he, by simp [hatt]⟩
  · exact ⟨_, he, by simp [hatt, resumeSend_tx]⟩

/-- Settles O34: the two frames are equal, so equal transports take the same bytes of them. -/
theorem frameDependsOnAddressSizeAndBufferAlone :
    Obligations.FrameDependsOnAddressSizeAndBufferAlone := by
  intro s s' ha hc hr hbuf hatt hans
  have hbytes : sendBytes s' = sendBytes s := by
    rw [sendBytes, sendBytes, ← frame_congr ha hc hr, hbuf, hatt, hans]
  obtain ⟨t, he, ht⟩ := exec_send_tx s
  obtain ⟨t', he', ht'⟩ := exec_send_tx s'
  exact ⟨t, t', sendBytes s, he, he', ht, hbytes ▸ ht'⟩

end Sys2Proof.Machine

/-! The two branches of the speed unit's clamp (44_speed_control.md R141). -/

namespace Sys2Proof.Machine

theorem setSpeedFactor_of_pos {f : Rat} (hf : 0 < f) (s : State) :
    setSpeedFactor f s = { s with speed := f } := by
  rw [setSpeedFactor, if_pos hf]

theorem setSpeedFactor_of_nonpos {f : Rat} (hf : f ≤ 0) (s : State) :
    setSpeedFactor f s = { s with speed := speedFloor } := by
  rw [setSpeedFactor, if_neg (not_lt.mpr hf)]

/-- Settles O42: each sign of the factor selects one branch of the clamp, and the floor is 1/20. -/
theorem speedFactorClampsOnSign : Obligations.SpeedFactorClampsOnSign :=
  fun s _ => ⟨fun hpos => setSpeedFactor_of_pos hpos s,
    fun hnonpos => setSpeedFactor_of_nonpos hnonpos s⟩

end Sys2Proof.Machine

/-! Packets: the decoder and the encoder are inverse to each other, the packets of each command, the
illegal packets, and the opcode map (30_encoding.md sections 1 to 4 and 6). -/

namespace Sys2Proof

/-! ### Decoding an encoding -/

theorem decodePlain_nil (i : Instr) : decodePlain i [] = .ok i := rfl

section
variable {xb : Nat} {col row : Int} (hxb : 1 ≤ xb) (hfit : pointFits (8 * xb) col row = true)
include hxb hfit

theorem decodePoint_pointBytes (make : Int → Int → Instr) :
    decodePoint xb make (pointBytes xb col row) = .ok (make col row) := by
  obtain ⟨hcol, hrow, -⟩ := coords_pointBytes xb col row [] hxb hfit
  rw [List.append_nil] at hcol hrow
  rw [decodePoint, if_pos (pointBytes_length xb col row), hcol, hrow]

theorem decodePointState_pointBytes (state : Bool) :
    decodePointState xb (pointBytes xb col row ++ [stateByte state]) =
      .ok (.set col row state) := by
  obtain ⟨hcol, hrow, hstate⟩ := coords_pointBytes xb col row [stateByte state] hxb hfit
  rw [decodePointState, if_pos (by simp), hstate, List.headD_cons, stateOf_stateByte, hcol, hrow]

theorem decodeText_pointBytes (text : List Byte) :
    decodeText xb (pointBytes xb col row ++ text) = .ok (.writeText col row text) := by
  obtain ⟨hcol, hrow, htext⟩ := coords_pointBytes xb col row text hxb hfit
  rw [decodeText, if_pos (by simp), hcol, hrow, htext]

end

/-- Settles O2: each opcode selects its format's reader, which reads back what the encoder wrote. -/
theorem decodingAnEncodingReturnsTheCommand : Obligations.DecodingAnEncodingReturnsTheCommand := by
  intro xb i hxb hfit
  cases i with
  | set col row state => exact decodePointState_pointBytes hxb hfit state
  | get col row => exact decodePoint_pointBytes hxb hfit .get
  | invert col row => exact decodePoint_pointBytes hxb hfit .invert
  | fillAll => exact decodePlain_nil .fillAll
  | eraseAll => exact decodePlain_nil .eraseAll
  | toggleOrientation => exact decodePlain_nil .toggleOrientation
  | writeText col row text => exact decodeText_pointBytes hxb hfit text
  | send => exact decodePlain_nil .send

/-! ### Encoding a decoded packet -/

/-- The point an operand field reads as fits the width. -/
theorem pointFits_coords {xb : Nat} (hxb : 1 ≤ xb) (bs : List Byte) :
    pointFits (8 * xb) (coordOf xb bs) (coordOf xb (bs.drop xb)) = true := by
  rw [pointFits, coordFits_coordOf xb _ hxb, coordFits_coordOf xb _ hxb, Bool.and_self]

/-- The point of an operand field and the bytes after it, written out again, are the field. -/
theorem pointBytes_coords_append {xb : Nat} {bs : List Byte} (h : 2 * xb ≤ bs.length) :
    pointBytes xb (coordOf xb bs) (coordOf xb (bs.drop xb)) ++ bs.drop (2 * xb) = bs := by
  rw [pointBytes_coords xb bs h, List.take_append_drop]

/-- An operand field of a point alone, written out again, is the field. -/
theorem pointBytes_coords_of_length {xb : Nat} {bs : List Byte} (h : bs.length = 2 * xb) :
    pointBytes xb (coordOf xb bs) (coordOf xb (bs.drop xb)) = bs := by
  rw [pointBytes_coords xb bs h.ge, List.take_of_length_le h.le]

/-- Settles O3: in each row of the opcode map the encoder writes out again the bytes the operands
were read from, and what was read from `xb` bytes fits them. -/
theorem encodingADecodedPacketReturnsIt : Obligations.EncodingADecodedPacketReturnsIt := by
  intro xb p i hxb h
  obtain ⟨opcode, rest, rfl, ⟨rfl, hl, state, hstate, rfl⟩ | ⟨rfl, hl, rfl⟩ | ⟨rfl, hl, rfl⟩ |
    ⟨rfl, rfl, rfl⟩ | ⟨rfl, rfl, rfl⟩ | ⟨rfl, rfl, rfl⟩ | ⟨rfl, hl, rfl⟩ | ⟨rfl, rfl, rfl⟩⟩ :=
    decode_ok_cases h
  · exact ⟨by rw [encode, ← hstate, pointBytes_coords_append (by omega)], pointFits_coords hxb rest⟩
  · exact ⟨by rw [encode, pointBytes_coords_of_length hl], pointFits_coords hxb rest⟩
  · exact ⟨by rw [encode, pointBytes_coords_of_length hl], pointFits_coords hxb rest⟩
  · exact ⟨rfl, rfl⟩
  · exact ⟨rfl, rfl⟩
  · exact ⟨rfl, rfl⟩
  · exact ⟨by rw [encode, pointBytes_coords_append hl], pointFits_coords hxb rest⟩
  · exact ⟨rfl, rfl⟩

end Sys2Proof

/-! The packets of each command at `XW = 16`: published packets, illegal packets, the opcode map and
the operands (30_encoding.md sections 1 to 4). -/

namespace Sys2Proof

/-- Settles O1: each packet is decoded. -/
theorem publishedPacketsDecode : Obligations.PublishedPacketsDecode := by
  unfold Obligations.PublishedPacketsDecode
  decide

/-! ### The operands of a packet -/

/-- Once for all uses: a packet decodes to a command exactly when it is that command's encoding and
the command fits the width. -/
theorem decode_eq_ok_iff {xb : Nat} (hxb : 1 ≤ xb) {p : List Byte} {i : Instr} :
    decode xb p = .ok i ↔ p = encode xb i ∧ wellFormed (8 * xb) i = true := by
  constructor
  · intro h
    obtain ⟨hpacket, hfit⟩ := encodingADecodedPacketReturnsIt xb p i hxb h
    exact ⟨hpacket.symm, hfit⟩
  · rintro ⟨rfl, hfit⟩
    exact decodingAnEncodingReturnsTheCommand xb i hxb hfit

/-- `sext_16` of the first two operand bytes (30_encoding.md R62). -/
theorem coordOf_two (lo hi : Byte) (rest : List Byte) :
    coordOf 2 (lo :: hi :: rest) = Machine.signed16 lo hi := by
  have hnat : leNat ((lo :: hi :: rest).take 2) = hi.toNat * 256 + lo.toNat := by
    simp only [List.take_succ_cons, List.take_zero, leNat]
    omega
  rw [coordOf, hnat, sext, Machine.signed16]
  norm_num

/-- A coordinate of 16 bits has the two bytes it is assembled from. -/
theorem coordBytes_two_iff {x : Int} {lo hi : Byte} :
    coordBytes 2 x = [lo, hi] ∧ coordFits 16 x = true ↔ x = Machine.signed16 lo hi := by
  constructor
  · rintro ⟨hbytes, hfit⟩
    have hread := coordOf_coordBytes 2 x [] (by omega) hfit
    rw [hbytes, List.append_nil, coordOf_two] at hread
    exact hread.symm
  · rintro rfl
    rw [← coordOf_two lo hi []]
    exact ⟨coordBytes_coordOf 2 [lo, hi] le_rfl, coordFits_coordOf 2 _ (by omega)⟩

/-- The operand field of a point of 16-bit coordinates and what follows it, byte by byte. -/
theorem pointBytes_two_iff {opcode : Byte} {p tail : List Byte} {col row : Int} :
    p = opcode :: (pointBytes 2 col row ++ tail) ∧ pointFits 16 col row = true ↔
      ∃ c₀ c₁ r₀ r₁, p = opcode :: c₀ :: c₁ :: r₀ :: r₁ :: tail ∧
        col = Machine.signed16 c₀ c₁ ∧ row = Machine.signed16 r₀ r₁ := by
  constructor
  · rintro ⟨rfl, hfit⟩
    obtain ⟨hcol, hrow⟩ : coordFits 16 col = true ∧ coordFits 16 row = true := by
      simpa [pointFits] using hfit
    obtain ⟨c₀, c₁, hc⟩ := List.length_eq_two.mp (coordBytes_length 2 col)
    obtain ⟨r₀, r₁, hr⟩ := List.length_eq_two.mp (coordBytes_length 2 row)
    refine ⟨c₀, c₁, r₀, r₁, ?_, coordBytes_two_iff.mp ⟨hc, hcol⟩, coordBytes_two_iff.mp ⟨hr, hrow⟩⟩
    rw [pointBytes, hc, hr]
    rfl
  · rintro ⟨c₀, c₁, r₀, r₁, rfl, hcol, hrow⟩
    obtain ⟨hc, hcfit⟩ := coordBytes_two_iff.mpr hcol
    obtain ⟨hr, hrfit⟩ := coordBytes_two_iff.mpr hrow
    refine ⟨?_, by rw [pointFits, hcfit, hrfit, Bool.and_self]⟩
    rw [pointBytes, hc, hr]
    rfl

section
variable {p : List Byte} {col row : Int}

theorem decode_two_set_iff {state : Bool} : decode 2 p = .ok (.set col row state) ↔
    ∃ c₀ c₁ r₀ r₁, p = [0x01, c₀, c₁, r₀, r₁, stateByte state] ∧
      col = Machine.signed16 c₀ c₁ ∧ row = Machine.signed16 r₀ r₁ :=
  (decode_eq_ok_iff (by omega)).trans pointBytes_two_iff

theorem decode_two_get_iff : decode 2 p = .ok (.get col row) ↔
    ∃ c₀ c₁ r₀ r₁, p = [0x02, c₀, c₁, r₀, r₁] ∧
      col = Machine.signed16 c₀ c₁ ∧ row = Machine.signed16 r₀ r₁ := by
  rw [decode_eq_ok_iff (by omega), encode, ← List.append_nil (pointBytes 2 col row)]
  exact pointBytes_two_iff

theorem decode_two_invert_iff : decode 2 p = .ok (.invert col row) ↔
    ∃ c₀ c₁ r₀ r₁, p = [0x03, c₀, c₁, r₀, r₁] ∧
      col = Machine.signed16 c₀ c₁ ∧ row = Machine.signed16 r₀ r₁ := by
  rw [decode_eq_ok_iff (by omega), encode, ← List.append_nil (pointBytes 2 col row)]
  exact pointBytes_two_iff

theorem decode_two_writeText_iff {text : List Byte} :
    decode 2 p = .ok (.writeText col row text) ↔
      ∃ c₀ c₁ r₀ r₁, p = 0x07 :: c₀ :: c₁ :: r₀ :: r₁ :: text ∧
        col = Machine.signed16 c₀ c₁ ∧ row = Machine.signed16 r₀ r₁ :=
  (decode_eq_ok_iff (by omega)).trans pointBytes_two_iff

end

/-- Settles O59: a packet that decodes is an encoding, and an encoded point is four bytes. -/
theorem operandsAreReadFromTheirBytes : Obligations.OperandsAreReadFromTheirBytes :=
  fun _ _ _ => ⟨fun _ => decode_two_set_iff, decode_two_get_iff, decode_two_invert_iff,
    fun _ => decode_two_writeText_iff⟩

/-! ### The illegal packets -/

section
variable {xb : Nat} {operands : List Byte}

theorem decodePlain_error_iff {i : Instr} :
    (∃ e, decodePlain i operands = .error e) ↔ operands.length ≠ 0 := by
  unfold decodePlain
  split <;> simp_all

theorem decodePoint_error_iff {make : Int → Int → Instr} :
    (∃ e, decodePoint xb make operands = .error e) ↔ operands.length ≠ 2 * xb := by
  unfold decodePoint
  split <;> simp_all

theorem decodeText_error_iff :
    (∃ e, decodeText xb operands = .error e) ↔ operands.length < 2 * xb := by
  unfold decodeText
  split <;> simp_all

theorem stateOf_eq_none_iff {b : Byte} : stateOf b = none ↔ b ≠ 0x00 ∧ b ≠ 0x01 := by
  unfold stateOf
  split
  · simp_all
  · split <;> simp_all

theorem decodePointState_error_iff :
    (∃ e, decodePointState xb operands = .error e) ↔ operands.length ≠ 2 * xb + 1 ∨
      (operands.length = 2 * xb + 1 ∧ operands[2 * xb]? ≠ some 0x00 ∧
        operands[2 * xb]? ≠ some 0x01) := by
  unfold decodePointState
  split
  case isTrue hl =>
    have hlt : 2 * xb < operands.length := by omega
    rw [List.drop_eq_getElem_cons hlt, List.headD_cons, List.getElem?_eq_getElem hlt]
    cases hs : stateOf operands[2 * xb] with
    | none =>
      obtain ⟨h0, h1⟩ := stateOf_eq_none_iff.mp hs
      simpa [hl] using ⟨h0, h1⟩
    | some state =>
      rw [stateOf_eq_some hs]
      cases state <;> simp [hl, stateByte]
  case isFalse hl => simp [hl]

end

/-- Settles O4: opcode by opcode, the reader of its format fails exactly on the listed lengths and
state bytes. -/
theorem illegalPacketsAreExactlyTheListedOnes :
    Obligations.IllegalPacketsAreExactlyTheListedOnes := by
  intro p
  cases p with
  | nil => exact iff_of_true ⟨_, rfl⟩ trivial
  | cons opcode rest =>
    simp only [decode, Machine.isIllegal]
    split
    case h_9 h1 h2 h3 h4 h5 h6 h7 h8 =>
      simp only [imp_false] at h1 h2 h3 h4 h5 h6 h7 h8
      have hunassigned : opcode.toNat = 0x00 ∨ 0x09 ≤ opcode.toNat := by omega
      exact iff_of_true ⟨_, rfl⟩ (hunassigned.imp_right .inl)
    case h_1 h => rw [decodePointState_error_iff, h]; simp
    case h_7 h => rw [decodeText_error_iff, h]; simp; omega
    case h_2 h | h_3 h => rw [decodePoint_error_iff, h]; simp
    case h_4 h | h_5 h | h_6 h | h_8 h => rw [decodePlain_error_iff, h]; simp

/-! ### The opcode map as masks of little-endian words -/

/-- Masking a number masks its lowest byte and the rest of it. -/
theorem byte_add_land (b m : Byte) (x y : Nat) :
    (b.toNat + 256 * x) &&& (m.toNat + 256 * y) = (b &&& m).toNat + 256 * (x &&& y) := by
  have hb : b.toNat < 256 := b.isLt
  have hm : m.toNat < 256 := m.isLt
  have hlow := Nat.and_mod_two_pow (a := b.toNat + 256 * x) (b := m.toNat + 256 * y) (n := 8)
  have hhigh := Nat.and_div_two_pow (a := b.toNat + 256 * x) (b := m.toNat + 256 * y) (n := 8)
  rw [show (b.toNat + 256 * x) % 2 ^ 8 = b.toNat by omega,
    show (m.toNat + 256 * y) % 2 ^ 8 = m.toNat by omega] at hlow
  rw [show (b.toNat + 256 * x) / 2 ^ 8 = x by omega,
    show (m.toNat + 256 * y) / 2 ^ 8 = y by omega] at hhigh
  rw [BitVec.toNat_and]
  omega

/-- Masking two numbers byte by byte. -/
theorem leNat_land (bs ms : List Byte) (h : bs.length = ms.length) :
    leNat bs &&& leNat ms = leNat (List.zipWith (· &&& ·) bs ms) := by
  induction bs generalizing ms with
  | nil => simp [leNat]
  | cons b bs ih =>
    cases ms with
    | nil => cases h
    | cons m ms =>
      rw [leNat, leNat, byte_add_land, ih ms (Nat.succ.inj h), List.zipWith_cons_cons, leNat]

theorem leNat_inj {bs cs : List Byte} (hl : bs.length = cs.length) :
    leNat bs = leNat cs ↔ bs = cs := by
  refine ⟨fun h => ?_, fun h => h ▸ rfl⟩
  rw [← leBytes_leNat bs, ← leBytes_leNat cs, hl, h]

/-- A packet's first byte is its number modulo 256 (30_encoding.md R60). -/
theorem leNat_cons_land_255 (b : Byte) (bs : List Byte) : leNat (b :: bs) &&& 0xFF = b.toNat := by
  have hb : b.toNat < 256 := b.isLt
  rw [Machine.land_255, leNat]
  omega

section
variable {p : List Byte} {op : Byte} {n : Nat} (hop : op.toNat = n)
include hop

/-- A packet of an opcode and no operands, by length and masked number. -/
theorem plainPacket_iff : p = [op] ↔ p.length = 1 ∧ leNat p &&& 0xFF = n := by
  subst hop
  constructor
  · rintro rfl
    exact ⟨rfl, leNat_cons_land_255 op []⟩
  · rintro ⟨hl, hmask⟩
    obtain ⟨b, rfl⟩ := List.length_eq_one_iff.mp hl
    rw [leNat_cons_land_255] at hmask
    rw [BitVec.eq_of_toNat_eq hmask]

/-- A packet of an opcode, four bytes and a tail, by length and masked number. -/
theorem textPacket_iff :
    (∃ text c₀ c₁ r₀ r₁, p = op :: c₀ :: c₁ :: r₀ :: r₁ :: text) ↔
      5 ≤ p.length ∧ leNat p &&& 0xFF = n := by
  subst hop
  constructor
  · rintro ⟨text, c₀, c₁, r₀, r₁, rfl⟩
    exact ⟨by simp, leNat_cons_land_255 op _⟩
  · rintro ⟨hl, hmask⟩
    match p, hl with
    | b :: c₀ :: c₁ :: r₀ :: r₁ :: text, _ =>
      rw [leNat_cons_land_255] at hmask
      rw [BitVec.eq_of_toNat_eq hmask]
      exact ⟨text, c₀, c₁, r₀, r₁, rfl⟩

/-- A packet of an opcode and a point, by length and masked number. -/
theorem pointPacket_iff :
    (∃ c₀ c₁ r₀ r₁, p = [op, c₀, c₁, r₀, r₁]) ↔ p.length = 5 ∧ leNat p &&& 0xFF = n := by
  constructor
  · rintro ⟨c₀, c₁, r₀, r₁, rfl⟩
    exact ⟨rfl, ((textPacket_iff hop).mp ⟨[], c₀, c₁, r₀, r₁, rfl⟩).2⟩
  · rintro ⟨hl, hmask⟩
    obtain ⟨text, c₀, c₁, r₀, r₁, rfl⟩ := (textPacket_iff hop).mpr ⟨hl.ge, hmask⟩
    obtain rfl : text = [] := by simpa using hl
    exact ⟨c₀, c₁, r₀, r₁, rfl⟩

end

/-- A state byte is 0 or 1 where its other seven bits are 0 (30_encoding.md R62). -/
theorem exists_stateByte_iff (b : Byte) : (∃ state, b = stateByte state) ↔ b &&& 0xFE = 0 := by
  rw [Bool.exists_bool]
  revert b
  decide

/-- The mask of SET's row keeps the opcode and the seven bits of the state byte that are 0. -/
theorem leNat_land_setMask_iff (op c₀ c₁ r₀ r₁ st : Byte) :
    leNat [op, c₀, c₁, r₀, r₁, st] &&& 0xFE00000000FF = 0x000000000001 ↔
      op = 0x01 ∧ ∃ state, st = stateByte state := by
  rw [exists_stateByte_iff, show 0xFE00000000FF = leNat [0xFF, 0, 0, 0, 0, 0xFE] from rfl,
    leNat_land _ _ (by rfl), show 0x000000000001 = leNat [0x01, 0, 0, 0, 0, 0] from rfl]
  rw [leNat_inj (by rfl)]
  have hop : op &&& 0xFF#8 = op := BitVec.and_allOnes
  simp [hop]

/-- A packet of format PS, by length and masked number. -/
theorem setPacket_iff {p : List Byte} :
    (∃ state c₀ c₁ r₀ r₁, p = [0x01, c₀, c₁, r₀, r₁, stateByte state]) ↔
      p.length = 6 ∧ leNat p &&& 0xFE00000000FF = 0x000000000001 := by
  constructor
  · rintro ⟨state, c₀, c₁, r₀, r₁, rfl⟩
    exact ⟨rfl, (leNat_land_setMask_iff _ _ _ _ _ _).mpr ⟨rfl, state, rfl⟩⟩
  · rintro ⟨hl, hword⟩
    match p, hl with
    | [op, c₀, c₁, r₀, r₁, st], _ =>
      obtain ⟨rfl, state, rfl⟩ := (leNat_land_setMask_iff _ _ _ _ _ _).mp hword
      exact ⟨state, c₀, c₁, r₀, r₁, rfl⟩

/-- Some point's command is read from a packet where the packet has the point's bytes, whichever
they are. -/
theorem exists_point_iff {D : Int → Int → Prop} {P : Byte → Byte → Byte → Byte → Prop}
    (h : ∀ {col row}, D col row ↔ ∃ c₀ c₁ r₀ r₁, P c₀ c₁ r₀ r₁ ∧
      col = Machine.signed16 c₀ c₁ ∧ row = Machine.signed16 r₀ r₁) :
    (∃ col row, D col row) ↔ ∃ c₀ c₁ r₀ r₁, P c₀ c₁ r₀ r₁ := by
  constructor
  · rintro ⟨col, row, hd⟩
    obtain ⟨c₀, c₁, r₀, r₁, hp, -⟩ := h.mp hd
    exact ⟨c₀, c₁, r₀, r₁, hp⟩
  · rintro ⟨c₀, c₁, r₀, r₁, hp⟩
    exact ⟨_, _, h.mpr ⟨c₀, c₁, r₀, r₁, hp, rfl, rfl⟩⟩

/-- The operand after a point may be chosen before it. -/
theorem exists_point_comm {α : Type} {D : Int → Int → α → Prop} :
    (∃ col row a, D col row a) ↔ ∃ a col row, D col row a :=
  ⟨fun ⟨col, row, a, h⟩ => ⟨a, col, row, h⟩, fun ⟨a, col, row, h⟩ => ⟨col, row, a, h⟩⟩

/-- A command without operands is read from the packet that is its opcode alone. -/
theorem decode_two_plain_iff {p : List Byte} {i : Instr} {op : Byte} {n : Nat}
    (henc : encode 2 i = [op]) (hfit : wellFormed 16 i = true) (hop : op.toNat = n) :
    decode 2 p = .ok i ↔ p.length = 1 ∧ leNat p &&& 0xFF = n := by
  rw [decode_eq_ok_iff (by omega), henc, and_iff_left hfit, plainPacket_iff hop]

/-- Settles O5: each row's packets, known byte by byte, are those of its length and masked
number. -/
theorem opcodeTableRowsMatchByMaskAndLength : Obligations.OpcodeTableRowsMatchByMaskAndLength :=
  fun _ => ⟨exists_point_comm.trans
      ((exists_congr fun state => exists_point_iff (decode_two_set_iff (state := state))).trans
        setPacket_iff),
    (exists_point_iff decode_two_get_iff).trans (pointPacket_iff rfl),
    (exists_point_iff decode_two_invert_iff).trans (pointPacket_iff rfl),
    decode_two_plain_iff rfl rfl rfl,
    decode_two_plain_iff rfl rfl rfl,
    decode_two_plain_iff rfl rfl rfl,
    exists_point_comm.trans
      ((exists_congr fun text => exists_point_iff (decode_two_writeText_iff (text := text))).trans
        (textPacket_iff rfl)),
    decode_two_plain_iff rfl rfl rfl⟩

end Sys2Proof

/-! What a command and a step write: the invariant, the constants, the growing logs, SPEED, and who
writes what (10_state.md sections 1 to 4, 60_exceptions.md sections 1 and 8). -/

namespace Sys2Proof.Machine

/-! ### What every command leaves unchanged -/

/-- A SEND under way writes its byte position, the answers and the two logs of the ports, and
nothing else (20_memory.md R54). -/
theorem resumeSend_frame (pos : Nat) (s : State) :
    resumeSend pos s = { s with
      sending := (resumeSend pos s).sending, answers := (resumeSend pos s).answers,
      tx := (resumeSend pos s).tx, rsp := (resumeSend pos s).rsp } := by
  rcases resumeSend_cases pos s with ⟨_, h⟩ | ⟨_, _, -, h⟩ | ⟨_, _, -, h⟩ <;> rw [h] <;> rfl

@[simp] theorem resumeSend_buf (pos : Nat) (s : State) : (resumeSend pos s).buf = s.buf := by
  rw [resumeSend_frame]

@[simp] theorem resumeSend_speed (pos : Nat) (s : State) : (resumeSend pos s).speed = s.speed := by
  rw [resumeSend_frame]

@[simp] theorem resumeSend_spd (pos : Nat) (s : State) : (resumeSend pos s).spd = s.spd := by
  rw [resumeSend_frame]

/-- How a SEND under way ends: with one response and the block idle, or held with none. -/
theorem resumeSend_response (pos : Nat) (s : State) :
    ((resumeSend pos s).sending = none ∧ ∃ w, (resumeSend pos s).rsp = s.rsp ++ [w]) ∨
      ((resumeSend pos s).sending ≠ none ∧ (resumeSend pos s).rsp = s.rsp) := by
  rcases resumeSend_cases pos s with ⟨_, h⟩ | ⟨_, _, -, h⟩ | ⟨_, _, -, h⟩ <;> rw [h]
  · exact .inl ⟨rfl, _, rfl⟩
  · exact .inl ⟨rfl, _, rfl⟩
  · exact .inr ⟨by simp, rfl⟩

/-- A SEND that is held is held at a byte of the frame. -/
theorem resumeSend_sending_lt {pos held : Nat} {s : State}
    (h : (resumeSend pos s).sending = some held) : held < s.params.frameLen := by
  rcases resumeSend_cases pos s with ⟨_, ht⟩ | ⟨_, _, -, ht⟩ | ⟨k, _, hk, ht⟩ <;> rw [ht] at h
  · cases h
  · cases h
  · obtain rfl := Option.some.inj h
    exact hk

/-- What a command may write: buffer, orientation, the ports' logs, the answers and the byte
position. -/
theorem exec_frame {i : Instr} {s t : State} (h : exec i s = .next t) :
    t = { s with buf := t.buf, orient := t.orient, sending := t.sending, answers := t.answers,
                 rsp := t.rsp, tx := t.tx } := by
  rcases exec_cases i s with ⟨-, u, ret, cause, he, hu⟩ | ⟨-, -, he⟩ | ⟨-, -, he⟩ <;>
    obtain rfl := Host.Outcome.next.inj (he.symm.trans h)
  · rw [hu]; rfl
  · rfl
  · rw [resumeSend_frame]

/-- A command other than SEND writes buffer and orientation and gives one response. -/
theorem exec_frame_of_ne_send {i : Instr} {s t : State} (hi : i ≠ .send) (h : exec i s = .next t) :
    ∃ w, t = { s with buf := t.buf, orient := t.orient, rsp := s.rsp ++ [w] } := by
  rcases exec_cases i s with ⟨-, u, ret, cause, he, hu⟩ | ⟨rfl, -⟩ | ⟨rfl, -⟩
  · obtain rfl := Host.Outcome.next.inj (he.symm.trans h)
    exact ⟨response ret cause, by rw [hu]; rfl⟩
  · exact absurd rfl hi
  · exact absurd rfl hi

/-- WRITE_TEXT writes the buffer and answers `1/0` (42_write_text.md R103). -/
theorem exec_writeText_frame {s t : State} {col row : Int} {text : List Byte}
    (h : exec (.writeText col row text) s = .next t) :
    t = { s with buf := t.buf, rsp := s.rsp ++ [0x8] } := by
  cases h
  obtain ⟨hframe, -, -⟩ := drawText_lights (s := writeAllWords s 0) (by simp) row col text
  rw [hframe]
  rfl

/-- Every command completes. -/
theorem exec_total (i : Instr) (s : State) : ∃ t, exec i s = .next t := by
  rcases exec_cases i s with ⟨-, _, _, _, h, -⟩ | ⟨-, -, h⟩ | ⟨-, -, h⟩ <;> exact ⟨_, h⟩

/-! ### What a command does to the buffer -/

/-- A dot mutation keeps the buffer or writes one word of it, which stays in form if it was. -/
theorem answerMutation_buf_cases {s : State} {f : ColumnWord → Nat → ColumnWord}
    (hf : ∀ w r n, w < 2 ^ n → r < n → f w r < 2 ^ n) (col row : Int) :
    (answerMutation s (modifyDot s col row f)).buf = s.buf ∨
    ∃ c v, (answerMutation s (modifyDot s col row f)).buf = s.buf.set c v ∧
      (Buffer.wf s.params s.buf = true → v < 2 ^ s.params.rows) := by
  rcases answerMutation_modifyDot s col row f with ⟨-, h⟩ | ⟨c, r, hm, h⟩ <;> rw [h]
  · exact .inl rfl
  · exact .inr ⟨c, _, rfl, fun hwf => hf _ _ _ (Buffer.wordAt_lt hwf c) (mapDot_bounds hm).2⟩

/-- What a command does to the buffer, once for all uses: nothing, one word of it written, or a new
buffer in form. -/
theorem exec_buf_cases {i : Instr} {s t : State} (h : exec i s = .next t) :
    t.buf = s.buf ∨
    (∃ c v, t.buf = s.buf.set c v ∧ (Buffer.wf s.params s.buf = true → v < 2 ^ s.params.rows)) ∨
    Buffer.wf s.params t.buf = true := by
  cases i with
  | set col row state =>
    cases h
    refine (answerMutation_buf_cases (fun w r n hw hr => ?_) col row).imp_right .inl
    cases state
    · exact clearBit_lt hw hr
    · exact setBit_lt hw hr
  | get col row =>
    simp only [exec, execGet] at h
    split at h <;> cases h <;> exact .inl rfl
  | invert col row =>
    cases h
    exact (answerMutation_buf_cases (fun _ _ _ => flipBit_lt) col row).imp_right .inl
  | fillAll =>
    cases h
    exact .inr (.inr (Buffer.wf_replicate (litWord_lt _)))
  | eraseAll =>
    cases h
    exact .inr (.inr (Buffer.wf_replicate (Nat.two_pow_pos _)))
  | toggleOrientation =>
    cases h
    exact .inl rfl
  | writeText col row text =>
    have hp := exec_params h
    cases h
    refine .inr (.inr ?_)
    rw [← hp]
    exact writeText_wf s col row text
  | send =>
    simp only [exec, execSend] at h
    split at h <;> cases h
    · exact .inl (resumeSend_buf 0 s)
    · exact .inl rfl

theorem exec_wf {i : Instr} {s t : State} (h : exec i s = .next t)
    (hwf : Buffer.wf s.params s.buf = true) : Buffer.wf s.params t.buf = true := by
  rcases exec_buf_cases h with hbuf | ⟨c, v, hbuf, hv⟩ | hnew
  · rwa [hbuf]
  · rw [hbuf]
    exact Buffer.wf_set hwf c (hv hwf)
  · exact hnew

theorem exec_buf_length {i : Instr} {s t : State} (h : exec i s = .next t)
    (hlen : s.buf.length = s.params.columns) : t.buf.length = s.params.columns := by
  rcases exec_buf_cases h with hbuf | ⟨c, v, hbuf, -⟩ | hnew
  · rwa [hbuf]
  · rwa [hbuf, List.length_set]
  · exact Buffer.wf_length hnew

/-! ### The invariant -/

/-- What an instance's parameters promise (00_scope.md R7 to R11, 44_speed_control.md R145). -/
theorem legal_iff (p : Params) :
    p.legal = true ↔ (1 ≤ p.addr ∧ p.addr ≤ 16) ∧ (1 ≤ p.columns ∧ p.columns ≤ 2 ^ (p.xw - 1)) ∧
      (1 ≤ p.rowsReq ∧ p.rows ≤ 2 ^ (p.xw - 1)) ∧ (8 ≤ p.xw ∧ p.xw % 8 = 0) ∧ 0 < p.speedInit ∧
      p.font.glyph 0x41 ≠ none := by
  simp only [Params.legal, Bool.and_eq_true, decide_eq_true_eq, Option.isSome_iff_ne_none,
    and_assoc]

theorem speedInit_pos {p : Params} (h : p.legal = true) : 0 < p.speedInit := by
  obtain ⟨-, -, -, -, hspeed, -⟩ := (legal_iff p).mp h
  exact hspeed

/-- The clamp keeps the speed factor positive (44_speed_control.md R140, R141). -/
theorem setSpeedFactor_speed_pos (f : Rat) (s : State) : 0 < (setSpeedFactor f s).speed := by
  rw [setSpeedFactor_speed]
  split
  · assumption
  · exact by norm_num [speedFloor]

/-- The state of construction meets the invariant (10_state.md R34). -/
theorem construct_inv {p : Params} (h : p.legal = true) : (State.construct p).Inv :=
  ⟨h, Buffer.wf_replicate (Nat.two_pow_pos _), speedInit_pos h, by simp [State.construct]⟩

/-- The invariant reads the parameters, the buffer, the speed and the byte position only. -/
theorem State.Inv.congr {s t : State} (h : s.Inv) (hp : t.params = s.params) (hb : t.buf = s.buf)
    (hq : t.speed = s.speed) (hs : t.sending = s.sending) : t.Inv := by
  simpa only [State.Inv, hp, hb, hq, hs] using h

theorem State.Inv.of_resumeSend {s : State} (h : s.Inv) (pos : Nat) : (resumeSend pos s).Inv := by
  obtain ⟨hl, hwf, hspeed, -⟩ := h
  refine ⟨?_, ?_, ?_, fun held hheld => ?_⟩
  · rwa [resumeSend_params]
  · rwa [resumeSend_params, resumeSend_buf]
  · rwa [resumeSend_speed]
  · rw [resumeSend_params]
    exact resumeSend_sending_lt hheld

/-- Every command keeps the invariant. -/
theorem State.Inv.of_exec {i : Instr} {s t : State} (h : s.Inv) (he : exec i s = .next t) :
    t.Inv := by
  obtain ⟨hl, hwf, hspeed, hpos⟩ := h
  have hwf' := exec_wf he hwf
  rcases exec_cases i s with ⟨-, u, ret, cause, hnext, hu⟩ | ⟨-, -, hnext⟩ | ⟨-, -, hnext⟩ <;>
    obtain rfl := Host.Outcome.next.inj (hnext.symm.trans he)
  · rw [hu] at hwf' ⊢
    exact ⟨hl, hwf', hspeed, hpos⟩
  · exact ⟨hl, hwf', hspeed, hpos⟩
  · exact State.Inv.of_resumeSend ⟨hl, hwf, hspeed, hpos⟩ 0

/-- Reset brings the invariant back, since the parameters are legal
(70_reset_and_hazards.md R170). -/
theorem State.Inv.of_resetBlock {s : State} (h : s.Inv) : (resetBlock s).Inv :=
  (construct_inv h.1).congr rfl rfl rfl rfl

theorem State.Inv.of_setSpeedFactor {s : State} (h : s.Inv) (f : Rat) :
    (setSpeedFactor f s).Inv := by
  obtain ⟨hl, hwf, -, hpos⟩ := h
  exact ⟨hl, hwf, setSpeedFactor_speed_pos f s, hpos⟩

/-- Settles O49: each kind of step is an operation that keeps the invariant. -/
theorem everyStepKeepsTheInvariant : Obligations.EveryStepKeepsTheInvariant := by
  intro s t h hstep
  have withCaller : ∀ moves, State.Inv { s with caller := moves } := fun moves =>
    h.congr rfl rfl rfl rfl
  obtain ⟨-, ⟨pos, -, rfl⟩ | ⟨-, -, rfl⟩ | ⟨_, _, _, -, -, -, rfl⟩ | ⟨_, moves, i, -, -, -, he⟩ |
    ⟨_, _, -, -, rfl⟩ | ⟨moves, -, -, rfl⟩ | ⟨f, moves, -, -, rfl⟩ | ⟨_, -, -, rfl⟩ |
    ⟨_, _, -, -, rfl⟩⟩ := step_cases hstep
  · exact h.of_resumeSend pos
  · exact h
  · exact h.congr rfl rfl rfl rfl
  · exact (withCaller moves).of_exec he
  · exact h.congr rfl rfl rfl rfl
  · exact (withCaller moves).of_resetBlock
  · exact (withCaller moves).of_setSpeedFactor f
  · exact h.congr rfl rfl rfl rfl
  · exact h.congr rfl rfl rfl rfl

/-- Settles O48: construction meets the invariant, and the default parameters are legal. -/
theorem invariantHoldsAtReset : Obligations.InvariantHoldsAtReset :=
  ⟨fun _ h => ⟨construct_inv h, rfl⟩, construct_inv (by decide), rfl⟩

end Sys2Proof.Machine

/-! What a step does with each of the caller's moves and each kind of packet, and what no step takes
back (30_encoding.md section 6, 60_exceptions.md sections 1 and 6 to 8). -/

namespace Sys2Proof.Machine

/-! ### The moves of the caller -/

theorem step_of_illegalPacket {s : State} {p : List Byte} {moves : List CallerMove}
    {e : DecodeError} (h : Awaits s (.packet p) moves) (hd : decode s.params.xb p = .error e) :
    step s = .next (respond false .illegal { s with caller := moves }) := by
  rw [step_of_awaits h]
  simp only [takeMove, takePacket, hd]

theorem step_of_packet {s : State} {p : List Byte} {moves : List CallerMove} {i : Instr}
    (h : Awaits s (.packet p) moves) (hd : decode s.params.xb p = .ok i) :
    step s = exec i { s with caller := moves } := by
  rw [step_of_awaits h]
  simp only [takeMove, takePacket, hd]

/-- An idle block with nothing presented holds its state (60_exceptions.md R166). -/
theorem step_of_idle {s : State} (hl : s.params.legal = true) (hs : s.sending = none)
    (hc : s.caller = []) : step s = .next s := by
  simp only [step, hl, if_true, nextAction, hs, hc]

/-- Settles O6: the packet is answered before any operand is looked at. -/
theorem illegalPacketChangesNothing : Obligations.IllegalPacketChangesNothing :=
  fun _ _ _ _ h hd => step_of_illegalPacket h hd

/-- Settles O50: an idle block runs what its packet decodes to. -/
theorem stepRunsTheDecodedCommand : Obligations.StepRunsTheDecodedCommand :=
  fun _ _ _ _ h hd => step_of_packet h hd

theorem decode_tablePacket {nbits w : Nat} {i : Instr} (h : decodeTableWord nbits w = some i) :
    decode 2 (tablePacket nbits w) = .ok i := by
  unfold decodeTableWord at h
  split at h
  case h_1 j hd => rw [hd, Option.some.inj h]
  case h_2 => cases h

/-- Settles O51: the word's packet is the next move of a block made idle, read with the table's
two-byte coordinates. -/
theorem placedTableWordRunsNext : Obligations.PlacedTableWordRunsNext := by
  intro s nbits w i hl hxw hi
  have hxb : (s.withFetchWord nbits w).params.xb = 2 := by
    rw [State.withFetchWord, presentPacket_params, Params.xb, hxw]
  have hawaits : Awaits (s.withFetchWord nbits w) (.packet (tablePacket nbits w)) s.caller :=
    ⟨hl, rfl, rfl⟩
  rw [step_of_packet hawaits (by rw [hxb]; exact decode_tablePacket hi)]
  rfl

/-- Settles O58: each move is one update of the idle block's state. -/
theorem callerMovesActOnAnIdleBlock : Obligations.CallerMovesActOnAnIdleBlock :=
  ⟨fun _ hl hs hc => step_of_idle hl hs hc, fun _ _ _ h => step_of_awaits h,
    fun _ _ h => step_of_awaits h, fun _ _ _ h => step_of_awaits h, fun _ _ h => step_of_awaits h,
    fun _ _ _ h => step_of_awaits h⟩

/-! ### Where a step stops, and what it keeps -/

/-- A step of an instance answers a next state, whatever it does. -/
theorem step_total {s : State} (hl : s.params.legal = true) : ∃ t, step s = .next t := by
  simp only [step, hl, if_true]
  cases nextAction s with
  | done t => exact ⟨t, rfl⟩
  | run i t => exact exec_total i t

theorem step_of_not_legal {s : State} (hl : ¬ s.params.legal = true) :
    step s = .refused .noInstance := by
  rw [step, if_neg hl]

/-- Settles O52: the two lists of conditions are `legal_iff` and its negation. -/
theorem stepStopsOnlyWhereNoInstanceExists : Obligations.StepStopsOnlyWhereNoInstanceExists := by
  refine fun s => ⟨fun h => step_total ((legal_iff _).mpr h), fun h => step_of_not_legal ?_⟩
  rw [legal_iff]
  tauto

theorem step_buf_length {s t : State} (h : step s = .next t)
    (hlen : s.buf.length = s.params.columns) : t.buf.length = s.params.columns := by
  obtain ⟨-, ⟨pos, -, rfl⟩ | ⟨-, -, rfl⟩ | ⟨_, _, _, -, -, -, rfl⟩ | ⟨_, moves, i, -, -, -, he⟩ |
    ⟨_, _, -, -, rfl⟩ | ⟨_, -, -, rfl⟩ | ⟨_, _, -, -, rfl⟩ | ⟨_, -, -, rfl⟩ | ⟨_, _, -, -, rfl⟩⟩ :=
    step_cases h
  · rwa [resumeSend_buf]
  · exact hlen
  · exact hlen
  · exact exec_buf_length (s := { s with caller := moves }) he hlen
  · exact hlen
  · exact List.length_replicate
  all_goals exact hlen

/-- Settles O53: no step writes the parameters, and none reallocates the buffer. -/
theorem instanceConstantsNeverChange : Obligations.InstanceConstantsNeverChange :=
  fun _ _ h => ⟨step_params h, step_buf_length h⟩

/-! ### One response for each packet -/

/-- A command of an idle block ends with one response and the block idle, or is a SEND that is held
with none. -/
theorem exec_response {i : Instr} {s t : State} (h : exec i s = .next t) (hs : s.sending = none) :
    (t.sending = none ∧ ∃ w, t.rsp = s.rsp ++ [w]) ∨
      (t.sending ≠ none ∧ t.rsp = s.rsp ∧ i = .send) := by
  rcases exec_cases i s with ⟨-, u, ret, cause, he, hu⟩ | ⟨-, -, he⟩ | ⟨hi, -, he⟩ <;>
    obtain rfl := Host.Outcome.next.inj (he.symm.trans h)
  · rw [hu]
    exact .inl ⟨hs, _, rfl⟩
  · exact .inl ⟨hs, _, rfl⟩
  · rcases resumeSend_response 0 s with hdone | ⟨hheld, hrsp⟩
    · exact .inl hdone
    · exact .inr ⟨hheld, hrsp, hi⟩

theorem exec_caller {i : Instr} {s t : State} (h : exec i s = .next t) : t.caller = s.caller := by
  rw [exec_frame h]

/-- Settles O54: an illegal packet is answered at once, a legal one as its command is, and a held
SEND as `resumeSend` says. -/
theorem everyPacketGetsOneResponse : Obligations.EveryPacketGetsOneResponse := by
  refine ⟨fun s p moves h => ?packet, fun s t pos hs hstep => ?held⟩
  case packet =>
    have ⟨_, hidle, _⟩ := h
    cases hd : decode s.params.xb p with
    | error e => exact ⟨_, step_of_illegalPacket h hd, rfl, .inl ⟨hidle, _, rfl⟩⟩
    | ok i =>
      obtain ⟨t, ht⟩ := exec_total i { s with caller := moves }
      refine ⟨t, (step_of_packet h hd).trans ht, exec_caller ht, ?_⟩
      rcases exec_response ht hidle with hdone | ⟨hheld, hrsp, rfl⟩
      · exact .inl hdone
      · exact .inr ⟨hheld, hrsp, rfl⟩
  case held =>
    obtain ⟨hl, -⟩ := step_cases hstep
    obtain rfl := Host.Outcome.next.inj ((step_of_sending hl hs).symm.trans hstep)
    exact resumeSend_response pos s

/-! ### The logs only grow -/

/-- The logs of `s` are initial parts of those of `t` (60_exceptions.md R168). -/
def LogsGrow (s t : State) : Prop := s.rsp <+: t.rsp ∧ s.tx <+: t.tx ∧ s.spd <+: t.spd

theorem LogsGrow.refl (s : State) : LogsGrow s s :=
  ⟨List.prefix_rfl, List.prefix_rfl, List.prefix_rfl⟩

theorem respond_logsGrow (ret : Bool) (cause : Cause) (s : State) :
    LogsGrow s (respond ret cause s) :=
  ⟨List.prefix_append _ _, List.prefix_rfl, List.prefix_rfl⟩

theorem resumeSend_logsGrow (pos : Nat) (s : State) : LogsGrow s (resumeSend pos s) := by
  refine ⟨?_, ?_, ?_⟩
  · rcases resumeSend_response pos s with ⟨-, w, hrsp⟩ | ⟨-, hrsp⟩ <;> rw [hrsp]
    exact List.prefix_append _ _
  · rw [resumeSend_tx]
    exact List.prefix_append _ _
  · rw [resumeSend_spd]

theorem exec_logsGrow {i : Instr} {s t : State} (h : exec i s = .next t) : LogsGrow s t := by
  rcases exec_cases i s with ⟨-, u, ret, cause, he, hu⟩ | ⟨-, -, he⟩ | ⟨-, -, he⟩ <;>
    obtain rfl := Host.Outcome.next.inj (he.symm.trans h)
  · rw [hu]
    exact respond_logsGrow ret cause _
  · exact respond_logsGrow _ _ _
  · exact resumeSend_logsGrow 0 s

/-- Settles O57: responses, bytes and numbers are appended and never removed, in every kind of
step. -/
theorem outputsOnlyGrow : Obligations.OutputsOnlyGrow := by
  intro s t h
  obtain ⟨-, ⟨pos, -, rfl⟩ | ⟨-, -, rfl⟩ | ⟨_, _, _, -, -, -, rfl⟩ | ⟨_, moves, i, -, -, -, he⟩ |
    ⟨_, _, -, -, rfl⟩ | ⟨_, -, -, rfl⟩ | ⟨_, _, -, -, rfl⟩ | ⟨_, -, -, rfl⟩ | ⟨_, _, -, -, rfl⟩⟩ :=
    step_cases h
  · exact resumeSend_logsGrow pos s
  · exact LogsGrow.refl _
  · exact respond_logsGrow _ _ s
  · exact exec_logsGrow (s := { s with caller := moves }) he
  · exact LogsGrow.refl s
  · exact LogsGrow.refl s
  · exact LogsGrow.refl s
  · exact ⟨List.prefix_rfl, List.prefix_rfl, List.prefix_append _ _⟩
  · exact ⟨List.prefix_rfl, List.prefix_rfl, List.prefix_append _ _⟩

/-! ### Who writes what -/

/-- Settles O55: a command that is no SEND writes neither port nor position, and each of the four
ends with `respond true .none`. -/
theorem onlySendEmitsAndFourCommandsCannotFail :
    Obligations.OnlySendEmitsAndFourCommandsCannotFail := by
  refine ⟨fun i s t hi h => ?ports, fun i s hi => ?cannotFail⟩
  case ports =>
    obtain ⟨w, ht⟩ := exec_frame_of_ne_send hi h
    rw [ht]
    exact ⟨rfl, rfl, rfl⟩
  case cannotFail =>
    rcases hi with rfl | rfl | rfl | ⟨col, row, text, rfl⟩
    · exact ⟨_, rfl, rfl⟩
    · exact ⟨_, rfl, rfl⟩
    · exact ⟨_, rfl, rfl⟩
    · obtain ⟨t, he, -⟩ := exec_writeText_dots s col row text
      exact ⟨t, he, by rw [exec_writeText_frame he]⟩

/-- A dot mutation writes the buffer and the response. -/
theorem answerMutation_orient (s : State) (col row : Int) (f : ColumnWord → Nat → ColumnWord) :
    (answerMutation s (modifyDot s col row f)).orient = s.orient := by
  rcases answerMutation_modifyDot s col row f with ⟨-, h⟩ | ⟨c, r, -, h⟩ <;> rw [h] <;> rfl

/-- GET answers and writes nothing (40_dot_ops.md R82). -/
theorem exec_get_eq (s : State) (col row : Int) :
    ∃ ret cause, exec (.get col row) s = .next (respond ret cause s) := by
  simp only [exec, execGet]
  cases readDot s col row with
  | none => exact ⟨_, _, rfl⟩
  | some v => exact ⟨_, _, rfl⟩

/-- SEND with a transport presents the frame from its first byte (43_send_frame.md R128). -/
theorem exec_send_attached {s : State} (h : s.attached = true) :
    exec .send s = .next (resumeSend 0 s) := by
  simp only [exec, execSend, h, if_true]

/-- SEND without a transport answers `0/2` (43_send_frame.md R129). -/
theorem exec_send_detached {s : State} (h : s.attached = false) :
    exec .send s = .next (respond false .noTransport s) := by
  simp only [exec, execSend, h, Bool.false_eq_true, if_false]

/-- SEND reads the buffer and the orientation and writes neither. -/
theorem exec_send_buf_orient {s t : State} (h : exec .send s = .next t) :
    t.buf = s.buf ∧ t.orient = s.orient := by
  cases hatt : s.attached with
  | false =>
    obtain rfl := Host.Outcome.next.inj ((exec_send_detached hatt).symm.trans h)
    exact ⟨rfl, rfl⟩
  | true =>
    obtain rfl := Host.Outcome.next.inj ((exec_send_attached hatt).symm.trans h)
    rw [resumeSend_frame]
    exact ⟨rfl, rfl⟩

/-- Only TOGGLE_ORIENTATION writes the orientation (10_state.md R24). -/
theorem exec_orient {i : Instr} {s t : State} (hi : i ≠ .toggleOrientation)
    (h : exec i s = .next t) : t.orient = s.orient := by
  cases i with
  | set col row state => cases h; exact answerMutation_orient s col row _
  | get col row =>
    obtain ⟨ret, cause, he⟩ := exec_get_eq s col row
    obtain rfl := Host.Outcome.next.inj (he.symm.trans h)
    rfl
  | invert col row => cases h; exact answerMutation_orient s col row _
  | fillAll => cases h; rfl
  | eraseAll => cases h; rfl
  | toggleOrientation => exact absurd rfl hi
  | writeText col row text => rw [exec_writeText_frame h]
  | send => exact (exec_send_buf_orient h).2

/-- Settles O56: what no command writes is `exec_frame`, the orientation `exec_orient`, and the
three commands that keep the buffer are looked at one by one. -/
theorem commandsWriteOnlyWhatTheTableNames : Obligations.CommandsWriteOnlyWhatTheTableNames := by
  intro i s t h
  have hframe := exec_frame h
  refine ⟨by rw [hframe], by rw [hframe], by rw [hframe], by rw [hframe], by rw [hframe],
    fun hi => exec_orient hi h, ?_⟩
  rintro (⟨col, row, rfl⟩ | rfl | rfl)
  · obtain ⟨ret, cause, he⟩ := exec_get_eq s col row
    obtain rfl := Host.Outcome.next.inj (he.symm.trans h)
    rfl
  · cases h; rfl
  · exact (exec_send_buf_orient h).1

/-! ### SPEED -/

/-- A dot mutation does not depend on SPEED. -/
theorem answerMutation_withSpeed (s : State) (q : Rat) (col row : Int)
    (f : ColumnWord → Nat → ColumnWord) :
    answerMutation { s with speed := q } (modifyDot { s with speed := q } col row f) =
      { answerMutation s (modifyDot s col row f) with speed := q } := by
  have hm : mapDot { s with speed := q } col row = mapDot s col row := rfl
  simp only [modifyDot, hm]
  cases mapDot s col row <;> rfl

/-- The text drawn on an erased buffer does not depend on SPEED: it is determined by its dots. -/
theorem drawText_withSpeed (s : State) (q : Rat) (row col : Int) (text : List Byte) :
    drawText row col text (writeAllWords { s with speed := q } 0) =
      { drawText row col text (writeAllWords s 0) with speed := q } := by
  obtain ⟨hframe, hlen, hdot⟩ := drawText_lights (s := writeAllWords s 0) (by simp) row col text
  obtain ⟨hframe', hlen', hdot'⟩ :=
    drawText_lights (s := writeAllWords { s with speed := q } 0) (by simp) row col text
  have hbuf : (drawText row col text (writeAllWords { s with speed := q } 0)).buf =
      (drawText row col text (writeAllWords s 0)).buf := by
    refine buf_ext (by rw [hlen, hlen']; rfl) fun c r => Bool.eq_iff_iff.mpr ?_
    exact (hdot' c r).trans (hdot c r).symm
  rw [hframe', hbuf, hframe]
  rfl

/-- A SEND under way does not depend on SPEED. -/
theorem resumeSend_withSpeed (pos : Nat) (s : State) (q : Rat) :
    resumeSend pos { s with speed := q } = { resumeSend pos s with speed := q } := by
  simp only [resumeSend]
  split <;> rfl

/-- Settles O44: `exec_frame` keeps SPEED, and each command's operation is the same under another
SPEED. -/
theorem commandsNeverTouchSpeed : Obligations.CommandsNeverTouchSpeed := by
  refine fun i s t h => ⟨by rw [exec_frame h], fun q => ?_⟩
  cases i with
  | set col row state =>
    cases h
    exact congrArg Host.Outcome.next (answerMutation_withSpeed s q col row _)
  | get col row =>
    have hread : readDot { s with speed := q } col row = readDot s col row := rfl
    simp only [exec, execGet, hread] at h ⊢
    cases hd : readDot s col row <;> rw [hd] at h <;> cases h <;> rfl
  | invert col row =>
    cases h
    exact congrArg Host.Outcome.next (answerMutation_withSpeed s q col row _)
  | fillAll => cases h; rfl
  | eraseAll => cases h; rfl
  | toggleOrientation => cases h; rfl
  | writeText col row text =>
    cases h
    simp only [exec, execWriteText, drawText_withSpeed]
    rfl
  | send =>
    rcases Bool.eq_false_or_eq_true s.attached with hatt | hatt
    · obtain rfl := Host.Outcome.next.inj ((exec_send_attached hatt).symm.trans h)
      rw [← resumeSend_withSpeed]
      exact exec_send_attached (s := { s with speed := q }) hatt
    · obtain rfl := Host.Outcome.next.inj ((exec_send_detached hatt).symm.trans h)
      exact exec_send_detached (s := { s with speed := q }) hatt

end Sys2Proof.Machine

/-! The dot operations, the whole-buffer operations and WRITE_TEXT, dot by dot (20_memory.md
section 2, 40_dot_ops.md, 41_bulk_ops.md, 42_write_text.md section 2). -/

namespace Sys2Proof.Machine

/-! ### The mapper -/

/-- The dot the mapper answers is the transformed point (20_memory.md R43). -/
theorem orientPoint_of_mapDot {s : State} {col row : Int} {c r : Nat}
    (h : mapDot s col row = some (c, r)) :
    orientPoint s.params s.orient col row = ((c : Int), (r : Int)) := by
  obtain ⟨-, -, hpoint⟩ := (mapDot_eq_some_iff s col row c r).mp h
  refine orientPoint_eq (fun ho => ?_) (fun ho => ?_)
  · rw [ho] at hpoint
    obtain ⟨hcol, hrow⟩ := hpoint
    omega
  · rw [ho] at hpoint
    obtain ⟨hcol, hrow⟩ := hpoint
    exact ⟨hcol.symm, hrow.symm⟩

theorem inRange_of_mapDot {s : State} {col row : Int} {cr : Nat × Nat}
    (h : mapDot s col row = some cr) : inRange s.params col row := by
  by_contra hr
  rw [(mapDot_eq_none_iff s col row).mpr hr] at h
  cases h

/-- The mapper is onto the dots of the display (20_memory.md R44 (b)). -/
theorem exists_mapDot_eq {s : State} {c r : Nat} (hc : c < s.params.columns)
    (hr : r < s.params.rows) : ∃ col row, mapDot s col row = some (c, r) := by
  cases ho : s.orient with
  | normal =>
    refine ⟨c, r, (mapDot_eq_some_iff s _ _ c r).mpr ⟨hc, hr, ?_⟩⟩
    rw [ho]
    exact ⟨rfl, rfl⟩
  | flipped =>
    refine ⟨s.params.columns - 1 - c, s.params.rows - 1 - r,
      (mapDot_eq_some_iff s _ _ c r).mpr ⟨hc, hr, ?_⟩⟩
    rw [ho]
    exact ⟨rfl, rfl⟩

theorem orientPoint_flipped_flipped (p : Params) (col row : Int) :
    orientPoint p .flipped (orientPoint p .flipped col row).1 (orientPoint p .flipped col row).2 =
      (col, row) := by
  simp only [orientPoint, sub_sub_cancel]

/-- Settles O9: verdict, injectivity and surjectivity are lemmas of their own; the corners are two
values of the flipped transform. -/
theorem mapperIsAVerdictPreservingBijection : Obligations.MapperIsAVerdictPreservingBijection := by
  refine ⟨mapDot_eq_none_iff, fun s col row col' row' hr heq => ?injective,
    fun s c r hc hr => ?onto, orientPoint_flipped_flipped, fun s ho hc hr => ?corners⟩
  case injective =>
    obtain ⟨c, r, hm⟩ := mapDot_of_inRange hr
    exact mapDot_inj hm (heq ▸ hm)
  case onto =>
    obtain ⟨col, row, hm⟩ := exists_mapDot_eq hc hr
    exact ⟨col, row, inRange_of_mapDot hm, hm⟩
  case corners =>
    simp only [mapDot_eq_some_iff, ho]
    omega

/-! ### SET, GET and INVERT in range and out of range -/

section
variable {s : State} {col row : Int} {c r : Nat}

theorem exec_set_of_mapDot (h : mapDot s col row = some (c, r)) (state : Bool) :
    exec (.set col row state) s = .next (respond true .none
      (writeWord s c ((if state then setBit else clearBit) (wordAt s.buf c) r))) := by
  simp only [exec, execSet, setDot, modifyDot, h, answerMutation]

theorem exec_invert_of_mapDot (h : mapDot s col row = some (c, r)) :
    exec (.invert col row) s =
      .next (respond true .none (writeWord s c (flipBit (wordAt s.buf c) r))) := by
  simp only [exec, execInvert, modifyDot, h, answerMutation]

theorem exec_get_of_mapDot (h : mapDot s col row = some (c, r)) :
    exec (.get col row) s = .next (respond (s.dot c r) .none s) := by
  simp only [exec, execGet, readDot, h]

theorem exec_get_of_not_inRange (h : ¬ inRange s.params col row) :
    exec (.get col row) s = .next (respond false .outOfRange s) := by
  simp only [exec, execGet, readDot, (mapDot_eq_none_iff s col row).mpr h]

/-- Out of range a dot mutation is answered `0/1` (20_memory.md R45). -/
theorem answerMutation_of_not_inRange (h : ¬ inRange s.params col row)
    (f : ColumnWord → Nat → ColumnWord) :
    answerMutation s (modifyDot s col row f) = respond false .outOfRange s := by
  simp only [modifyDot, (mapDot_eq_none_iff s col row).mpr h, answerMutation]

end

/-- Settles O10: SET writes one bit of the word the mapper answers. -/
theorem setWritesExactlyOneDot : Obligations.SetWritesExactlyOneDot := by
  intro s col row state hlen hr
  obtain ⟨c, r, hm⟩ := mapDot_of_inRange hr
  have hc : c < s.buf.length := hlen ▸ (mapDot_bounds hm).1
  exact ⟨_, c, r, exec_set_of_mapDot hm state, rfl, by simp, orientPoint_of_mapDot hm,
    fun c' r' => dot_setWrite hc r state c' r'⟩

/-- Settles O11: INVERT complements one bit of the word the mapper answers. -/
theorem invertComplementsExactlyOneDot : Obligations.InvertComplementsExactlyOneDot := by
  intro s col row hlen hr
  obtain ⟨c, r, hm⟩ := mapDot_of_inRange hr
  have hc : c < s.buf.length := hlen ▸ (mapDot_bounds hm).1
  exact ⟨_, c, r, exec_invert_of_mapDot hm, rfl, by simp, orientPoint_of_mapDot hm,
    fun c' r' => dot_flipWrite hc r c' r'⟩

/-- Settles O12: GET answers the dot the mapper answers, as `ret` with cause 0. -/
theorem getReadsTheMappedDot : Obligations.GetReadsTheMappedDot := by
  intro s col row hr
  obtain ⟨c, r, hm⟩ := mapDot_of_inRange hr
  refine ⟨c, r, orientPoint_of_mapDot hm, ?_⟩
  rw [exec_get_of_mapDot hm]
  cases s.dot c r <;> rfl

/-- Settles O13: where the mapper answers nothing each of the three answers `0/1`. -/
theorem outOfRangeDotCommandsChangeNothing : Obligations.OutOfRangeDotCommandsChangeNothing :=
  fun _ _ _ _ h => ⟨congrArg Host.Outcome.next (answerMutation_of_not_inRange h _),
    exec_get_of_not_inRange h, congrArg Host.Outcome.next (answerMutation_of_not_inRange h _)⟩

/-! ### What a dot operation leaves readable -/

@[simp] theorem readDot_respond (ret : Bool) (cause : Cause) (s : State) (col row : Int) :
    readDot (respond ret cause s) col row = readDot s col row := rfl

/-- A mutation of one bit through `f` leaves what GET reads at every other coordinate, and out of
range it leaves what GET reads anywhere. -/
theorem readDot_answerMutation {s : State} {f : ColumnWord → Nat → ColumnWord}
    {col row col' row' : Int} (hf : ∀ w r r', r' ≠ r → (f w r).testBit r' = w.testBit r')
    (hlen : s.buf.length = s.params.columns)
    (hne : ¬ (col' = col ∧ row' = row) ∨ ¬ inRange s.params col row) :
    readDot (answerMutation s (modifyDot s col row f)) col' row' = readDot s col' row' := by
  rcases answerMutation_modifyDot s col row f with ⟨-, ht⟩ | ⟨c, r, hm, ht⟩ <;>
    rw [ht, readDot_respond]
  have hother : ¬ (col = col' ∧ row = row') := by
    rintro ⟨rfl, rfl⟩
    exact hne.elim (fun h => h ⟨rfl, rfl⟩) (fun h => h (inRange_of_mapDot hm))
  exact readDot_writeWord_of_ne (hlen ▸ (mapDot_bounds hm).1) hm (hf _ r) hother

/-- GET answers alike in states where it reads alike. -/
theorem exec_get_congr {s t : State} {col row : Int} (h : readDot t col row = readDot s col row) :
    ∃ w, exec (.get col row) s = .next { s with rsp := s.rsp ++ [w] } ∧
      exec (.get col row) t = .next { t with rsp := t.rsp ++ [w] } := by
  simp only [exec, execGet, h]
  cases readDot s col row with
  | none => exact ⟨_, rfl, rfl⟩
  | some v => exact ⟨_, rfl, rfl⟩

/-- Settles O15: both writes are mutations of one bit. -/
theorem dotWritesLeaveOtherDotsReadable : Obligations.DotWritesLeaveOtherDotsReadable := by
  rintro s t i col row col' row' hlen (⟨state, rfl⟩ | rfl) h hne <;> cases h
  · refine exec_get_congr (readDot_answerMutation (fun w r r' hr => ?_) hlen hne)
    cases state <;> simp [hr.symm]
  · exact exec_get_congr (readDot_answerMutation (fun w r r' hr => by simp [hr.symm]) hlen hne)

/-- The rotated coordinate under the other orientation is the coordinate (20_memory.md R42). -/
theorem orientPoint_toggle (p : Params) (o : Orientation) (col row : Int) :
    orientPoint p o.toggle (p.columns - 1 - col) (p.rows - 1 - row) = orientPoint p o col row := by
  cases o <;> simp only [Orientation.toggle, orientPoint, sub_sub_cancel]

/-- A dot held at a coordinate is held, after a toggle, at the rotated one (41_bulk_ops.md R94). -/
theorem HoldsDot.exec_toggle {s : State} {col row : Int} {value : Bool}
    (h : HoldsDot col row value s) :
    ∃ t, exec .toggleOrientation s = .next t ∧
      HoldsDot (s.params.columns - 1 - col) (s.params.rows - 1 - row) value t := by
  obtain ⟨hlen, hread⟩ := h
  refine ⟨_, rfl, hlen, ?_⟩
  simp only [readDot, mapDot, respond_params, respond_orient, orientPoint_toggle]
  exact hread

theorem execAll_cons {i : Instr} {s t : State} (h : exec i s = .next t) (commands : List Instr) :
    execAll (i :: commands) s = execAll commands t := by
  rw [execAll, h]

/-- Settles O16: SET makes the dot hold the value, and the toggle moves the coordinate, not the
dot. -/
theorem toggleReinterpretsDrawnDots : Obligations.ToggleReinterpretsDrawnDots := by
  intro s col row state hlen hr
  obtain ⟨u, hset, hu⟩ := exec_set_holdsDot hlen hr state
  obtain ⟨t, htoggle, ht⟩ := hu.exec_toggle
  rw [exec_params hset] at ht
  exact ⟨t, respond state .none t, response state .none,
    by rw [execAll_cons hset, execAll_cons htoggle, execAll], ht.exec_get, rfl,
    getLsbD_response state .none⟩

theorem writeWord_respond (ret : Bool) (cause : Cause) (s : State) (c : Nat) (v : ColumnWord) :
    writeWord (respond ret cause s) c v = respond ret cause (writeWord s c v) := rfl

/-- Two writes of one word leave the second. -/
theorem writeWord_writeWord (s : State) (c : Nat) (v w : ColumnWord) :
    writeWord (writeWord s c v) c w = writeWord s c w := by
  simp only [writeWord, List.set_set]

/-- A word written back leaves the state as it was. -/
theorem writeWord_wordAt_self {s : State} {c : Nat} (h : c < s.buf.length) :
    writeWord s c (wordAt s.buf c) = s := by
  have hget : wordAt s.buf c = s.buf[c] := by simp [wordAt, h]
  rw [writeWord, hget, List.set_getElem_self]

/-- Settles O17: both INVERTs flip the same bit of the same word, and the flip is an involution. -/
theorem invertTwiceRestoresTheBuffer : Obligations.InvertTwiceRestoresTheBuffer := by
  intro s col row hlen hr
  obtain ⟨c, r, hm⟩ := mapDot_of_inRange hr
  have hc : c < s.buf.length := hlen ▸ (mapDot_bounds hm).1
  have hword : wordAt (writeWord s c (flipBit (wordAt s.buf c) r)).buf c =
      flipBit (wordAt s.buf c) r := by
    rw [writeWord_buf, wordAt_set hc, if_pos rfl]
  have hback : writeWord (writeWord s c (flipBit (wordAt s.buf c) r)) c
      (flipBit (wordAt (writeWord s c (flipBit (wordAt s.buf c) r)).buf c) r) = s := by
    rw [hword, flipBit_flipBit, writeWord_writeWord, writeWord_wordAt_self hc]
  have hagain := exec_invert_of_mapDot
    (s := respond true .none (writeWord s c (flipBit (wordAt s.buf c) r))) hm
  rw [respond_buf, writeWord_respond, hback] at hagain
  rw [execAll_cons (exec_invert_of_mapDot hm), execAll_cons hagain, execAll]
  simp only [respond, List.append_assoc]
  rfl

/-! ### The whole-buffer operations -/

theorem litWord_eq (p : Params) : litWord p = 2 ^ p.rows - 1 := by
  rw [litWord, Nat.one_shiftLeft]

/-- Settles O18: the lit word has exactly the bits of the display's rows. -/
theorem fillAllLightsExactlyTheDisplay : Obligations.FillAllLightsExactlyTheDisplay := by
  refine fun s => ⟨_, rfl, ?_, fun c r => ?_⟩
  · rw [← litWord_eq]
    rfl
  · rw [dot_respond, dot_writeAllWords, testBit_litWord, Bool.and_eq_true, decide_eq_true_eq,
      decide_eq_true_eq]

/-- Settles O19: no bit of 0 is set. -/
theorem eraseAllDarkensEveryDot : Obligations.EraseAllDarkensEveryDot := by
  refine fun s => ⟨_, rfl, rfl, fun c r => ?_⟩
  rw [dot_respond, dot_writeAllWords, Nat.zero_testBit, Bool.and_false]

/-- Settles O20: in range GET answers a dot, which FILL_ALL lit and ERASE_ALL darkened; out of range
it answers 0. -/
theorem getAfterFillAndErase : Obligations.GetAfterFillAndErase := by
  refine fun s t col row => ⟨fun h => ?fill, fun h => ?erase⟩
  case fill =>
    obtain ⟨u, hu, -, hlit⟩ := fillAllLightsExactlyTheDisplay s
    obtain rfl := Host.Outcome.next.inj (hu.symm.trans h)
    have hparams := exec_params hu
    by_cases hr : inRange u.params col row
    · obtain ⟨c, r, hm⟩ := mapDot_of_inRange hr
      have hdot : u.dot c r = true := (hlit c r).mpr (hparams ▸ mapDot_bounds hm)
      refine ⟨_, exec_get_of_mapDot hm, ?_⟩
      rw [getLsbD_response, hdot, ← hparams]
      exact iff_of_true rfl hr
    · refine ⟨_, exec_get_of_not_inRange hr, ?_⟩
      rw [getLsbD_response, ← hparams]
      exact iff_of_false (by simp) hr
  case erase =>
    obtain ⟨u, hu, -, hdark⟩ := eraseAllDarkensEveryDot s
    obtain rfl := Host.Outcome.next.inj (hu.symm.trans h)
    by_cases hr : inRange u.params col row
    · obtain ⟨c, r, hm⟩ := mapDot_of_inRange hr
      exact ⟨_, exec_get_of_mapDot hm, (getLsbD_response _ _).trans (hdark c r)⟩
    · exact ⟨_, exec_get_of_not_inRange hr, getLsbD_response _ _⟩

theorem Orientation.toggle_toggle (o : Orientation) : o.toggle.toggle = o := by
  cases o <;> rfl

/-- Settles O21: the toggle exchanges the two orientations. -/
theorem toggleFlipsOrientationOnly : Obligations.ToggleFlipsOrientationOnly := by
  refine fun s => ⟨fun ho => ?_, fun ho => ?_, ?_⟩
  · simp only [exec, execToggleOrientation, ho]; rfl
  · simp only [exec, execToggleOrientation, ho]; rfl
  · simp only [execAll, exec, execToggleOrientation, respond, Orientation.toggle_toggle,
      List.append_assoc]
    rfl

/-! ### WRITE_TEXT -/

/-- Settles O22: the lit dots are `textLights`, whose two quantifiers are written as one. -/
theorem writeTextDrawsExactlyTheGlyphDots : Obligations.WriteTextDrawsExactlyTheGlyphDots := by
  intro s col row text
  obtain ⟨t, he, hlen, hdot⟩ := exec_writeText_dots s col row text
  refine ⟨t, he, exec_writeText_frame he, hlen, fun c r => (hdot c r).trans ⟨?_, ?_⟩⟩
  · rintro ⟨n, ch, hn, g, hg, i, k, hlit⟩
    exact ⟨n, ch, g, i, k, hn, hg, hlit⟩
  · rintro ⟨n, ch, g, i, k, hn, hg, hlit⟩
    exact ⟨n, ch, hn, g, hg, i, k, hlit⟩

/-- The second part of a text is drawn six columns further on for each character of the first
(42_write_text.md R103). -/
theorem textLights_append (s : State) (col row : Int) (before after : List Byte) (c r : Nat) :
    textLights s col row (before ++ after) c r ↔
      textLights s col row before c r ∨ textLights s (col + 6 * before.length) row after c r := by
  induction before generalizing col with
  | nil => simp [not_textLights_nil]
  | cons ch before ih =>
    have hcol : col + 6 + 6 * (before.length : Int) = col + 6 * ((ch :: before).length : Nat) := by
      push_cast [List.length_cons]; ring
    rw [List.cons_append, textLights_cons, textLights_cons, ih, hcol, or_assoc]

/-- An unsupported character lights no dot (42_write_text.md R108). -/
theorem not_charLights_of_unsupported {s : State} {ch : Byte} (h : s.params.font.glyph ch = none)
    (cur row : Int) (c r : Nat) : ¬ charLights s cur row ch c r := by
  rintro ⟨g, hg, -⟩
  rw [h] at hg
  cases hg

/-- Settles O24: the text is split at the character, which lights nothing. -/
theorem unsupportedCharactersOnlyAdvance : Obligations.UnsupportedCharactersOnlyAdvance := by
  intro s col row before after ch hch
  obtain ⟨t, he, -, hdot⟩ := exec_writeText_dots s col row (before ++ ch :: after)
  refine ⟨t, he, by rw [exec_writeText_frame he], fun c r => ?_⟩
  have hcol : col + 6 * (before.length : Int) + 6 = col + 6 * (before.length + 1) := by ring
  rw [hdot, textLights_append, textLights_cons,
    or_iff_right (not_charLights_of_unsupported hch _ row c r), hcol]

end Sys2Proof.Machine

/-! The checksum's consequences, the constants of an instance, the speed unit and the response word
(43_send_frame.md section 4, 00_scope.md section 4, 44_speed_control.md, 30_encoding.md
section 6). -/

namespace Sys2Proof.Machine

/-! ### The checksum -/

theorem checkSum_eq (p : Params) (crc : Nat) :
    checkSum p crc = (byteSum (header p) + crc + 1) % 256 := by
  rw [checkSum, land_255]

/-- Settles O30: the checksum is the negation of the sum modulo 256 (`finalChecksum_eq`), and the
rest is arithmetic of a byte. -/
theorem checksumIsTheTwosComplement : Obligations.ChecksumIsTheTwosComplement := by
  intro p crc
  have hneg := finalChecksum_eq p crc
  have hlt := checkSum_lt p crc
  have hsum := checkSum_eq p crc
  refine ⟨hneg, ?_, ?_, ?_⟩ <;> omega

/-- The checksum reads `crc` modulo 256 only. -/
theorem finalChecksum_congr (p : Params) {crc crc' : Nat} (h : crc % 256 = crc' % 256) :
    finalChecksum p crc = finalChecksum p crc' := by
  have hsum : checkSum p crc = checkSum p crc' := by
    rw [checkSum_eq, checkSum_eq]
    omega
  rw [finalChecksum, finalChecksum, hsum]

/-- An accumulator that wraps after every byte holds the sum modulo 256 (decision D16). -/
theorem foldl_wrapping_mod (bytes : List Byte) (crc : Nat) :
    bytes.foldl (fun crc b => (crc + b.toNat) % 256) crc % 256 = (crc + byteSum bytes) % 256 := by
  induction bytes generalizing crc with
  | nil => rfl
  | cons b bytes ih =>
    rw [List.foldl_cons, ih, byteSum_cons, Nat.mod_add_mod, Nat.add_assoc]

/-- Settles O31: both accumulators agree modulo 256, and the checksum reads no more. -/
theorem eightBitAccumulatorGivesTheSameChecksum :
    Obligations.EightBitAccumulatorGivesTheSameChecksum := by
  intro p bytes
  apply finalChecksum_congr
  rw [foldl_wrapping_mod, Nat.zero_add]

/-! ### The constants of an instance -/

theorem rows_eq_bpc (p : Params) : p.rows = 8 * p.bpc := by
  rw [Params.bpc, Params.rows]
  omega

/-- Settles O47: rounding up to whole bytes, and products of whole bytes. -/
theorem derivedConstantsFollowTheParameters : Obligations.DerivedConstantsFollowTheParameters := by
  intro p
  have hrows : p.rows = (p.rowsReq + 7) / 8 * 8 := rfl
  refine ⟨by omega, by omega, by omega, rows_eq_bpc p, ?size, payloadLen_eq p, ?frame,
    fun hl => ?wire⟩
  case size => rw [dataSize_eq, rows_eq_bpc]; ring
  case frame => rw [Params.frameLen]; omega
  case wire =>
    obtain ⟨⟨hlow, hhigh⟩, -⟩ := (legal_iff p).mp hl
    rw [Params.wire]
    omega

/-- Settles O46: the fields of `Params.default`, and the constants computed from them. -/
theorem resetInstanceHasTheSpecDefaults : Obligations.ResetInstanceHasTheSpecDefaults := by
  refine ⟨rfl, rfl, rfl, rfl, rfl, rfl, rfl, ?_, rfl, rfl, rfl, rfl, rfl, rfl⟩
  decide

/-! ### The speed unit -/

/-- Settles O43: the two operations append their number, and a product grows with its positive
factor. -/
theorem speedReadsBackAndScalesDelays : Obligations.SpeedReadsBackAndScalesDelays := by
  refine ⟨fun _ => rfl, fun _ _ => rfl, fun _ _ => rfl, fun _ => rfl, fun s d q q' hd hq => ?_,
    fun s => ⟨?_, ?_⟩⟩
  · exact ⟨d * q, d * q', rfl, rfl, mul_lt_mul_of_pos_left hq hd⟩
  · rw [setSpeedFactor_of_pos (by norm_num), adjustDelay_spd, one_mul]
  · rw [setSpeedFactor_of_nonpos le_rfl, adjustDelay_spd, one_mul, speedFloor]

/-! ### The response word -/

theorem extractLsb'_response (ret : Bool) (cause : Cause) :
    (response ret cause).extractLsb' 0 3 = cause.code := by
  cases ret <;> cases cause <;> rfl

/-- Settles O7: the word is `ret` before the three bits of the cause. -/
theorem responseWordCarriesRetAndCause : Obligations.ResponseWordCarriesRetAndCause :=
  ⟨fun ret cause => ⟨getLsbD_response ret cause, extractLsb'_response ret cause⟩,
    rfl, rfl, rfl, rfl, rfl⟩

end Sys2Proof.Machine

/-! SEND under every behaviour of the transport (43_send_frame.md section 6). -/

namespace Sys2Proof.Machine

/-! ### One SEND -/

/-- Settles O36: the presence of the transport is asked before the first byte. -/
theorem sendWithoutTransportEmitsNothing : Obligations.SendWithoutTransportEmitsNothing :=
  fun _ h => exec_send_detached h

/-- Settles O35: presenting the whole frame to a transport that takes it all. -/
theorem sendEmitsTheWholeFrame : Obligations.SendEmitsTheWholeFrame := by
  intro s rest hs hatt hans
  rw [exec_send_attached hatt, resumeSend_allTaken (pos := 0) hans, List.drop_zero, ← hs]
  rfl

/-- Settles O37: presenting the whole frame to a transport that fails after `k` bytes. -/
theorem sendStopsAtAFailedWrite : Obligations.SendStopsAtAFailedWrite := by
  intro s k rest hs hatt hk hans
  rw [exec_send_attached hatt, resumeSend_failed (pos := 0) (by omega) hans, List.drop_zero, ← hs]
  rfl

/-- Settles O38: presenting the whole frame to a transport that stalls, or has no answer, after `k`
bytes. -/
theorem sendWaitsForAStalledTransport : Obligations.SendWaitsForAStalledTransport := by
  intro s k rest hatt hk
  refine ⟨fun hans => ?_, fun hans => ?_⟩
  · rw [exec_send_attached hatt, resumeSend_stalled (pos := 0) (by omega) hans, List.drop_zero,
      Nat.zero_add]
  · rw [exec_send_attached hatt, resumeSend_unanswered (pos := 0) (by omega) hans, List.drop_zero,
      Nat.zero_add]

/-- With no answer at all a held SEND stays where it is (43_send_frame.md R131). -/
theorem resumeSend_of_no_answers {s : State} {pos : Nat} (hs : s.sending = some pos)
    (hpos : pos < s.params.frameLen) (hans : s.answers = []) : resumeSend pos s = s := by
  rw [resumeSend_unanswered (k := 0) hpos hans, List.take_zero, List.append_nil, Nat.add_zero,
    ← hs, ← hans]

/-- Settles O39: the step of a held SEND is `resumeSend`, whose frame is `resumeSend_frame`. -/
theorem stalledSendHoldsTheBlock : Obligations.StalledSendHoldsTheBlock := by
  refine ⟨fun s t pos hs hstep => ?_, fun s pos hl hs hpos hans => ?_⟩
  · obtain ⟨hl, -⟩ := step_cases hstep
    obtain rfl := Host.Outcome.next.inj ((step_of_sending hl hs).symm.trans hstep)
    exact resumeSend_frame pos s
  · rw [step_of_sending hl hs, resumeSend_of_no_answers hs hpos hans]

/-! ### A SEND over several steps -/

/-- A byte taken moves the SEND on to the next byte. -/
theorem resumeSend_of_ok {s : State} {pos : Nat} {b : Byte} {answers : List TxAnswer}
    (hb : (frame s.params s.buf)[pos]? = some b) (hans : s.answers = .ok :: answers) :
    resumeSend pos s = resumeSend (pos + 1) { s with tx := s.tx ++ [b], answers := answers } := by
  obtain ⟨hpos, hget⟩ := List.getElem?_eq_some_iff.mp hb
  simp only [resumeSend, hans, List.drop_eq_getElem_cons hpos, hget, transmit, List.append_assoc,
    List.singleton_append, List.length_cons, Nat.add_assoc, Nat.add_comm 1]

/-- A stall leaves the SEND held at its byte. -/
theorem resumeSend_of_stall {s : State} {pos : Nat} {answers : List TxAnswer}
    (hpos : pos < s.params.frameLen) (hans : s.answers = .stall :: answers) :
    resumeSend pos s = { s with answers := answers, sending := some pos } := by
  rw [resumeSend_stalled (k := 0) hpos hans, List.take_zero, List.append_nil, Nat.add_zero]

theorem run_of_sending {s : State} {pos : Nat} (hl : s.params.legal = true)
    (hs : s.sending = some pos) (k : Nat) :
    Host.Core.run Sys2Proof.core (k + 1) s = Host.Core.run Sys2Proof.core k (resumeSend pos s) :=
  run_succ (step_of_sending hl hs) k

/-- A SEND that has begun at byte `pos` and is stalled but never failed ends, one step for each
stall later, with the rest of the frame out. -/
theorem run_resumeSend {given rest : List TxAnswer} (hfail : .fail ∉ given) :
    ∀ (s : State) (pos : Nat), s.params.legal = true → s.answers = given ++ .ok :: rest →
      pos + given.count .ok + 1 = s.params.frameLen →
      Host.Core.run Sys2Proof.core (given.count .stall) (resumeSend pos s) =
        .next (respond true .none { s with
          tx := s.tx ++ (frame s.params s.buf).drop pos, answers := rest, sending := none }) := by
  induction given with
  | nil =>
    intro s pos hl hans hcount
    rw [resumeSend_allTaken (rest := rest)]
    · rfl
    · have hlast : s.params.frameLen - pos = 1 := by simp at hcount; omega
      rw [hlast, hans]
      rfl
  | cons a given ih =>
    intro s pos hl hans hcount
    have hmore : TxAnswer.fail ∉ given := fun h => hfail (List.mem_cons_of_mem a h)
    cases a with
    | fail => exact absurd List.mem_cons_self hfail
    | ok =>
      rw [List.count_cons_self] at hcount
      have hpos : pos < (frame s.params s.buf).length := by rw [frame_length]; omega
      have hstall : (TxAnswer.ok :: given).count .stall = given.count .stall :=
        List.count_cons_of_ne (by decide)
      rw [resumeSend_of_ok (List.getElem?_eq_getElem hpos) hans, hstall]
      have hcount' : pos + 1 + given.count .ok + 1 = s.params.frameLen := by omega
      refine (ih hmore { s with tx := s.tx ++ [_], answers := given ++ .ok :: rest } (pos + 1)
        hl rfl hcount').trans ?_
      rw [List.drop_eq_getElem_cons hpos, List.append_assoc, List.singleton_append]
    | stall =>
      have hok : (TxAnswer.stall :: given).count .ok = given.count .ok :=
        List.count_cons_of_ne (by decide)
      rw [hok] at hcount
      rw [resumeSend_of_stall (by omega) hans, List.count_cons_self]
      have hresume := run_of_sending
        (s := { s with answers := given ++ .ok :: rest, sending := some pos }) hl rfl
      exact (hresume _).trans (ih hmore _ pos hl rfl hcount)

/-- Settles O40: the first step takes the packet and begins the SEND, and `run_resumeSend` ends
it. -/
theorem stalledSendFinishesWhenAnswered : Obligations.StalledSendFinishesWhenAnswered := by
  intro s moves given rest hawaits hatt hans hfail hcount
  have hstep : step s = .next (resumeSend 0 { s with caller := moves }) :=
    (step_of_packet hawaits rfl).trans (exec_send_attached hatt)
  obtain ⟨hl, hs, -⟩ := hawaits
  rw [run_succ hstep]
  rw [← Nat.zero_add (given.count .ok)] at hcount
  refine (run_resumeSend hfail { s with caller := moves } 0 hl hans hcount).trans ?_
  rw [List.drop_zero, ← hs]
  rfl

end Sys2Proof.Machine

/-! The byte-by-byte pseudocode of SEND puts out what `transmit` puts out of the whole frame
(43_send_frame.md R128, decision D16). -/

namespace Sys2Proof.Machine

/-- The stream `t` is where presenting `bytes` to a transport with these answers has come to. -/
def Stream.Presents (answers : List TxAnswer) (bytes : List Byte) (t : Stream) : Prop :=
  transmit bytes answers = ⟨t.sent, t.rest, t.status⟩

/-- All bytes taken are all bytes presented. -/
theorem sent_of_allTaken {bytes : List Byte} {answers : List TxAnswer}
    (h : (transmit bytes answers).status = .allTaken) : (transmit bytes answers).sent = bytes := by
  rcases transmit_cases bytes answers with ⟨_, -, ht⟩ | ⟨_, _, -, -, ht⟩ | ⟨_, _, -, -, ht⟩ |
    ⟨_, -, -, ht⟩ <;> rw [ht] at h ⊢ <;> cases h

theorem Stream.Presents.emit {answers : List TxAnswer} {bytes : List Byte} {t : Stream}
    (h : t.Presents answers bytes) (counts : Bool) (b : Byte) :
    (t.emit counts b).Presents answers (bytes ++ [b]) := by
  obtain ⟨sent, rest, status, crc⟩ := t
  have hsent : status = .allTaken → sent = bytes := fun hs => by
    have := sent_of_allTaken (bytes := bytes) (answers := answers) (by rw [h]; exact hs)
    rwa [h] at this
  rw [Presents, transmit_append, h]
  cases status with
  | allTaken =>
    rw [← hsent rfl]
    rcases rest with _ | ⟨_ | _ | _, rest⟩ <;> simp [transmit, Stream.emit]
  | failed => rfl
  | stalled => rfl

theorem Stream.Presents.foldl_emit {answers : List TxAnswer} {bytes : List Byte} {t : Stream}
    (h : t.Presents answers bytes) (counts : Bool) (more : List Byte) :
    (more.foldl (Stream.emit counts) t).Presents answers (bytes ++ more) := by
  induction more generalizing bytes t with
  | nil => rwa [List.append_nil]
  | cons b more ih => simpa using ih (h.emit counts b)

/-- A byte taken adds to `crc` where it counts, and came after bytes that were all taken. -/
theorem Stream.crc_emit {counts : Bool} {t : Stream} {b : Byte}
    (h : (t.emit counts b).status = .allTaken) :
    t.status = .allTaken ∧ (t.emit counts b).crc = t.crc + if counts then b.toNat else 0 := by
  obtain ⟨sent, rest, status, crc⟩ := t
  cases status with
  | allTaken =>
    rcases rest with _ | ⟨_ | _ | _, rest⟩
    · cases h
    · refine ⟨rfl, ?_⟩
      cases counts <;> rfl
    · cases h
    · cases h
  | failed => cases h
  | stalled => cases h

theorem Stream.crc_foldl_emit {counts : Bool} {bytes : List Byte} {t : Stream}
    (h : (bytes.foldl (Stream.emit counts) t).status = .allTaken) :
    t.status = .allTaken ∧
      (bytes.foldl (Stream.emit counts) t).crc = t.crc + if counts then byteSum bytes else 0 := by
  induction bytes generalizing t with
  | nil => exact ⟨h, by simp⟩
  | cons b bytes ih =>
    obtain ⟨hemit, hcrc⟩ := ih h
    obtain ⟨ht, hb⟩ := Stream.crc_emit hemit
    refine ⟨ht, ?_⟩
    rw [List.foldl_cons, hcrc, hb, byteSum_cons]
    cases counts <;> simp [Nat.add_assoc]

/-- After bytes that were not all taken it does not matter what would come next. -/
theorem transmit_append_congr {bytes : List Byte} {answers : List TxAnswer}
    (h : (transmit bytes answers).status ≠ .allTaken) (more more' : List Byte) :
    transmit (bytes ++ more) answers = transmit (bytes ++ more') answers := by
  rw [transmit_append, transmit_append]
  cases hs : (transmit bytes answers).status with
  | allTaken => exact absurd hs h
  | failed => rfl
  | stalled => rfl

/-- The loop over the columns and their bytes is one loop over the payload
(43_send_frame.md R121). -/
theorem foldl_payload {α : Type} (f : α → Byte → α) (p : Params) (buf : List ColumnWord) (a : α) :
    (List.range p.columns).foldl
        (fun a c => (List.range p.bpc).foldl
          (fun a i => (hex2 (wordByte (wordAt buf c) i)).foldl f a) a) a =
      (payload p buf).foldl f a := by
  simp only [payload, columnText, List.foldl_flatMap]

/-- The pseudocode's three loops present the frame: where the footer is reached, the running `crc`
is the payload's sum (43_send_frame.md R122, R128). -/
theorem streamFrame_presents (p : Params) (buf : List ColumnWord) (answers : List TxAnswer) :
    (streamFrame p buf answers).Presents answers (frame p buf) := by
  have hstart : (⟨[], answers, .allTaken, 0⟩ : Stream).Presents answers [] := rfl
  simp only [streamFrame, foldl_payload]
  generalize h₂ : (payload p buf).foldl (Stream.emit true)
    ((header p).foldl (Stream.emit false) ⟨[], answers, .allTaken, 0⟩) = t₂
  have hbody : t₂.Presents answers (header p ++ payload p buf) := by
    rw [← h₂]
    exact (hstart.foldl_emit false (header p)).foldl_emit true (payload p buf)
  have hframe := hbody.foldl_emit false (footer p t₂.crc)
  by_cases hs : t₂.status = .allTaken
  · have hcrc : t₂.crc = byteSum (payload p buf) := by
      rw [← h₂] at hs ⊢
      obtain ⟨hheader, hpayload⟩ := Stream.crc_foldl_emit hs
      obtain ⟨-, hzero⟩ := Stream.crc_foldl_emit hheader
      rw [hpayload, hzero]
      simp
    rw [hcrc] at hframe ⊢
    exact hframe
  · have hstop : (transmit (header p ++ payload p buf) answers).status ≠ .allTaken := by
      rw [hbody]
      exact hs
    exact (transmit_append_congr hstop _ _).trans hframe

/-- What a SEND under way leaves of the answers. -/
theorem resumeSend_answers (pos : Nat) (s : State) :
    (resumeSend pos s).answers =
      (transmit ((frame s.params s.buf).drop pos) s.answers).rest := by
  simp only [resumeSend]
  split <;> rfl

/-- How a SEND ends, by how presenting the frame ended (43_send_frame.md R128, R130, R131). -/
theorem resumeSend_end (pos : Nat) (s : State) {t : Transmission}
    (ht : transmit ((frame s.params s.buf).drop pos) s.answers = t) :
    (t.status = .allTaken →
      (resumeSend pos s).sending = none ∧ (resumeSend pos s).rsp = s.rsp ++ [0x8]) ∧
    (t.status = .failed →
      (resumeSend pos s).sending = none ∧ (resumeSend pos s).rsp = s.rsp ++ [0x3]) ∧
    (t.status = .stalled →
      (resumeSend pos s).sending = some (pos + t.sent.length) ∧
        (resumeSend pos s).rsp = s.rsp) := by
  simp only [resumeSend, ht]
  refine ⟨fun h => ?_, fun h => ?_, fun h => ?_⟩ <;> rw [h] <;> exact ⟨rfl, rfl⟩

/-- Settles O41: the stream and the SEND are both what `transmit` makes of the frame. -/
theorem sendFollowsTheBytewisePseudocode : Obligations.SendFollowsTheBytewisePseudocode := by
  intro s hatt
  have hstream := streamFrame_presents s.params s.buf s.answers
  rw [Stream.Presents, ← List.drop_zero (l := frame s.params s.buf)] at hstream
  refine ⟨resumeSend 0 s, exec_send_attached hatt, ?_, ?_, ?_, ?_⟩
  · rw [resumeSend_tx, hstream]
  · rw [resumeSend_answers, hstream]
  · rw [resumeSend_frame]
  · have hend := resumeSend_end 0 s hstream
    rwa [Nat.zero_add] at hend

end Sys2Proof.Machine
